-- ==== Sys2Proof/Word.lean ====
section
/-! DEFINITION. The value types of the block (spec/00_scope.md R10, R11): bytes, byte buffers, symbols, symbol
strings and the 16-bit unsigned fields of frames. There are no signed values and no machine word. -/

namespace Sys2Proof

/-- A byte: an unsigned integer 0 to 255 (R10). Bit 0 is its least significant bit (R11). -/
abbrev Byte := BitVec 8

/-- A `u16` field or a prefix word: an unsigned integer 0 to 65535 (R61). -/
abbrev U16 := BitVec 16

/-- A byte buffer: a finite sequence of bytes, the first byte at index 0 (R10). -/
abbrev Bytes := List Byte

/-- A symbol: an 8-bit code (R10). -/
abbrev Sym := BitVec 8

/-- A symbol string: a finite sequence of symbols, the first symbol first (R10, R43). -/
abbrev Syms := List Sym

end Sys2Proof
end

