-- ==== Sys2Proof/Config.lean ====
section
/-! DEFINITION. The parameters of the block (spec/00_scope.md R8): what the source leaves open (the alphabet and the
five collaborator functions) and the capacities. The open ones are ONE opaque constant, `Config.openParams`: nothing in
Lean can say which alphabet or which functions it holds, so a theorem about the machine holds for all of them
(notes/assumptions/4.md). The default field values below serve one purpose, that Lean knows the types are inhabited;
`opaque` hides them (they are nobody's value of an open parameter). -/

namespace Sys2Proof

/-- `ALPHABET` (R8, R106): 24 pairwise distinct 8-bit codes, none equal to 0x2D. -/
structure Alphabet where
  codes : List Byte := (List.range 24).map (BitVec.ofNat 8)
  length_codes : codes.length = 24 := by decide
  nodup_codes : codes.Nodup := by decide
  dash_not_mem : 0x2D#8 ∉ codes := by decide
  deriving Inhabited

/-- `ENCBLK` and `DECBLK` (R182, R183): total functions of a 32-byte key and a 16-byte block, with the one law the
rules rely on. -/
structure BlockCipher where
  enc : Vector Byte 32 → Vector Byte 16 → Vector Byte 16 := fun _ b => b
  dec : Vector Byte 32 → Vector Byte 16 → Vector Byte 16 := fun _ b => b
  dec_enc : ∀ k b, dec k (enc k b) = b := by intros; rfl
  deriving Inhabited

/-- The parameters the source leaves OPEN (R8): the alphabet and the collaborators, each total and deterministic and
of the stated output length (R165, R180, R181, R182, R183). -/
structure OpenParams where
  alphabet : Alphabet
  sha256 : Bytes → Vector Byte 32
  sha512 : Bytes → Vector Byte 64
  /-- `scrypt password salt costN blockSizeR parallelismP outputLength` (R181). -/
  scrypt : Bytes → Bytes → Nat → Nat → Nat → (outLen : Nat) → Vector Byte outLen
  cipher : BlockCipher
  deriving Inhabited

/-- The capacities (R8): `none` is "unbounded", and `MAXSHARES` is 1 to 255. -/
structure Capacities where
  maxBytes : Option Nat
  maxSyms : Option Nat
  maxPin : Option Nat
  maxShares : Nat
  one_le_maxShares : 1 ≤ maxShares := by decide
  maxShares_le : maxShares ≤ 255 := by decide
  shareBlobLen : Nat
  deriving DecidableEq, Repr

/-- The configuration, fixed for the life of a block (R29): an argument of the
decoder, of every unit function and of the step. -/
structure Config where
  params : OpenParams
  caps : Capacities

/-- The open parameters of the machine: a constant without a body. -/
opaque Config.openParams : OpenParams

end Sys2Proof
end

