-- ==== Sys2Proof/Machine/Constants.lean ====
section
/-! DEFINITION. The constants the source fixes (spec/00_scope.md R7), the default capacities (R8) and the
configuration the machine runs with. -/

namespace Sys2Proof.Machine

/-- `BASE`: radix of the string encoding (R7). -/
abbrev base24 : Nat := 24
/-- `SECRET_LEN` in bytes (R7). -/
abbrev secretLen : Nat := 32
/-- `CHECKSUM_LEN` in bytes (R7). -/
abbrev checksumLen : Nat := 3
/-- `PAYLOAD_LEN` in bytes: 2 + 16 + 16 + 3 (R7). -/
abbrev payloadLen : Nat := 37
/-- `SALT_LEN` in bytes (R7). -/
abbrev saltLen : Nat := 5
/-- `KDF_N`, the scrypt cost (R7). -/
abbrev kdfN : Nat := 8192
/-- `KDF_R`, the scrypt block size factor (R7). -/
abbrev kdfR : Nat := 8
/-- `KDF_P`, the scrypt parallelism (R7). -/
abbrev kdfP : Nat := 1
/-- `KDF_OUT`, the scrypt output length in bytes (R7). -/
abbrev kdfOut : Nat := 64

/-- The decided defaults of R8: `MAXBYTES`, `MAXSYMS`, `MAXPIN`, `MAXSHARES`, `SHARE_BLOB_LEN`. -/
def defaultCaps : Capacities :=
  { maxBytes := some 64, maxSyms := some 112, maxPin := some 255, maxShares := 8, shareBlobLen := 40 }

/-- The configuration of the machine: the open parameters and the default capacities. -/
def config : Config := { params := Config.openParams, caps := defaultCaps }

end Sys2Proof.Machine
end

