-- ==== Sys2Proof/Machine/Bytes.lean ====
section
/-! DEFINITION. Byte-order primitives and digit expansions (spec/00_scope.md R10 to R12, spec/20_memory.md R40 to
R43): every buffer read as a number is big-endian, and every value is an unbounded natural (R110). -/

namespace Sys2Proof.Machine

/-- `be(b)`, the big-endian unsigned value: `be [] = 0`, `be (b ‖ [x]) = 256 * be b + x` (R12). -/
def be (b : Bytes) : Nat := b.foldl (fun acc x => 256 * acc + x.toNat) 0

/-- `bytes_N(v)`, the `n`-byte buffer whose value is `v`, for `v < 256^n` (R12). -/
def bytesN : Nat → Nat → Bytes
  | 0, _ => []
  | n + 1, v => bytesN n (v / 256) ++ [BitVec.ofNat 8 v]

/-- The digits of `v`, most significant first, no leading zero; `fuel` bounds their number. -/
def digitsAux (base : Nat) : Nat → Nat → List Nat
  | 0, _ => []
  | fuel + 1, v => if v = 0 then [] else digitsAux base fuel (v / base) ++ [v % base]

/-- The expansion of `v` in `base` (at least 2), most significant digit first, empty for 0. A value has at most
as many digits as its own size, so `v` itself is fuel enough. -/
def digitsOf (base v : Nat) : List Nat := digitsAux base v v

/-- The value of a digit list, most significant digit first. -/
def ofDigits (base : Nat) (ds : List Nat) : Nat := ds.foldl (fun acc d => base * acc + d) 0

/-- `minbytes(v)`, the shortest buffer with value `v`; empty for 0 (R12, R103). -/
def minBytes (v : Nat) : Bytes := (digitsOf 256 v).map (BitVec.ofNat 8)

/-- `lz(b)`, the number of leading zero bytes (R12). -/
def lz (b : Bytes) : Nat := (b.takeWhile (· == 0#8)).length

/-- `b[i:j]`, the bytes at indices `i` to `j - 1` (R10). -/
def slice (b : Bytes) (i j : Nat) : Bytes := (b.take j).drop i

/-- A `u16` from its two bytes, the more significant first (R42, R61). -/
def u16Of (hi lo : Byte) : U16 := hi ++ lo

/-- `bytes_2(w)`: a `u16` as two bytes, the more significant first (R42, R61). -/
def u16Bytes (w : U16) : Bytes := [w.extractLsb' 8 8, w.extractLsb' 0 8]

/-- A buffer of exactly `n` bytes as a vector. On a buffer of another length (no rule uses it there) it is cut or
filled with zero bytes. -/
def toVec (n : Nat) (b : Bytes) : Vector Byte n :=
  ⟨((b ++ List.replicate n 0#8).take n).toArray, by simp⟩

end Sys2Proof.Machine
end

