-- ==== Sys2Proof/Syntax.lean ====
section
/-! DEFINITION. The 14 commands (spec/30_encoding.md R66, spec/opcode_table.json), one constructor per row, with the
operand fields of its format (R62). Length fields are not operands: they are the lengths of the buffers (R71). -/

namespace Sys2Proof

/-- A command with its operands. A field is a `u16`, a `u8` or a run of bytes or symbols as it stands in the frame
(R68); the checks on lengths are `Instr.wellFormed`. -/
inductive Instr where
  /-- `B24ENC`, 0x01, format BUF (R101). -/
  | b24enc (data : Bytes)
  /-- `B24DEC`, 0x02, format STR (R104). -/
  | b24dec (str : Syms)
  /-- `B24DECL`, 0x03, format STRL (R105). -/
  | b24decl (explen : U16) (str : Syms)
  /-- `NSMUL`, 0x04, format BUF (R121). -/
  | nsmul (data : Bytes)
  /-- `NSDIV`, 0x05, format BUF (R123). -/
  | nsdiv (data : Bytes)
  /-- `PFXPACK`, 0x06, format PFX (R142). -/
  | pfxpack (netid : U16) (count index : Byte)
  /-- `PFXVFY`, 0x07, format PFXV (R144). -/
  | pfxvfy (actual netid : U16) (count index : Byte)
  /-- `PFXUNPK`, 0x08, format WORD (R145). -/
  | pfxunpk (word : U16)
  /-- `CKSUM`, 0x09, format CK (R162). -/
  | cksum (pfx : U16) (secret : Bytes)
  /-- `CKVFY`, 0x0A, format CKV (R164). -/
  | ckvfy (pfx : U16) (secret embedded : Bytes)
  /-- `TKENC`, 0x0B, format ENC (R193). -/
  | tkenc (netid : U16) (pin secret : Bytes)
  /-- `TKDEC`, 0x0C, format DEC (R194). -/
  | tkdec (netid : U16) (pin : Bytes) (str : Syms)
  /-- `TKDECSH`, 0x0D, format DECSH (R195). -/
  | tkdecsh (netid : U16) (count index : Byte) (pin : Bytes) (str : Syms)
  /-- `SHXOR`, 0x0E, format XOR (R221). -/
  | shxor (shares : List Bytes)
  deriving DecidableEq, Repr

end Sys2Proof
end

