-- ==== Sys2Proof/Machine/State.lean ====
section
/-! DEFINITION. The state of the block and its host's two queues, the ways a command ends, and the reset state
(spec/10_state.md R20 to R29, spec/70_reset_and_hazards.md R280, R281). `FCAUSE` is all the state the spec gives the
block; `inbox` and `responses` are the host's side of the interface (notes/assumptions/1.md). -/

namespace Sys2Proof.Machine

/-- What the host does to the block (R18): it presents a command frame, or it asserts reset (R280). -/
inductive HostEvent where
  | frame (bytes : Bytes)
  | reset
  deriving DecidableEq, Repr

/-- A response frame `status:u8 ‖ rlen:u16 ‖ rdata:bytes(rlen)` (R64). -/
structure Response where
  status : Byte
  rlen : U16
  rdata : Bytes
  deriving DecidableEq, Repr

/-- The recoverable error kinds of R240: the source's five, and the spec's `ERR_CAPACITY` (R249). -/
inductive ErrKind where
  | invalidSymbol
  | lengthMismatch
  | overflow
  | prefixMismatch
  | checksumMismatch
  | capacity
  deriving DecidableEq, Repr

/-- The fault causes of R253. -/
inductive FaultCause where
  | keyLengthError
  | illegalCommand
  deriving DecidableEq, Repr

/-- How a command ends (R13, R15): a result, a recoverable error, or the block's fault. -/
inductive Reply where
  | ok (rdata : Bytes)
  | err (kind : ErrKind)
  | fault (cause : FaultCause)
  deriving DecidableEq, Repr

/-- The machine. -/
structure State where
  /-- `FCAUSE`, 8 bits: 0x00 Idle, anything else Faulted (R24). -/
  fcause : BitVec 8
  /-- What the host will still do, in order (R21, R49, R291). The model's own: the block has no queue. -/
  inbox : List HostEvent
  /-- The responses delivered so far, the first first (R49, R291). The model's own: the block keeps none, and no
  step reads them. -/
  responses : List Response
  deriving DecidableEq, Repr

/-- Why the machine stops. -/
inductive Fault where
  /-- Raised by a step, and by `exec`, when `FCAUSE` is not 0x00 and no reset is to come: the block is stuck and
  answers nothing (R254). Safe: it is the spec's own stop. -/
  | blockFaulted (cause : BitVec 8)
  deriving DecidableEq, Repr

/-- Why the model has no meaning for a command. -/
inductive Refusal where
  /-- Raised by an arm of `exec` whose command has no meaning yet; no arm does. Safe: the model stops. -/
  | notModelled (mnemonic : String)
  deriving DecidableEq, Repr

/-- The machine right after reset (R28, R281): `FCAUSE = 0x00` and nothing else. The host has presented nothing and
has taken no response. -/
def State.reset : State := { fcause := 0x00#8, inbox := [], responses := [] }

end Sys2Proof.Machine
end

