-- ==== Sys2Proof/Machine/Flags.lean ====
section
/-! DEFINITION. The status byte, the analogue of flags (spec/10_state.md R22, spec/60_exceptions.md R240, R253): the
code of every way a command ends. -/

namespace Sys2Proof.Machine

/-- `OK` (R240). -/
def statusOk : Byte := 0x00#8

/-- The status codes of the recoverable errors (R240). -/
def ErrKind.code : ErrKind → Byte
  | .invalidSymbol => 0x01#8
  | .lengthMismatch => 0x02#8
  | .overflow => 0x03#8
  | .prefixMismatch => 0x04#8
  | .checksumMismatch => 0x05#8
  | .capacity => 0x06#8

/-- The codes of the faults, both status byte and value of `FCAUSE` (R240, R253). -/
def FaultCause.code : FaultCause → Byte
  | .keyLengthError => 0x80#8
  | .illegalCommand => 0x81#8

/-- The status byte of a reply (R240). -/
def Reply.status : Reply → Byte
  | .ok _ => statusOk
  | .err k => k.code
  | .fault c => c.code

/-- The data of a reply: empty unless it is `OK` (R64). -/
def Reply.rdata : Reply → Bytes
  | .ok d => d
  | .err _ => []
  | .fault _ => []

end Sys2Proof.Machine
end

