-- ==== Sys2Proof/Machine/Ops.lean ====
section
/-! DEFINITION. The operations over the state that every command shares: answering, taking the fault
(spec/60_exceptions.md R252), reset, the one way out of it (R255, spec/70_reset_and_hazards.md R280), and completing a
command. The block has no memory and no register but `FCAUSE`, so there is nothing else to read or write. -/

namespace Sys2Proof.Machine

/-- The block takes commands (R24). -/
abbrev State.Idle (s : State) : Prop := s.fcause = 0x00#8

/-- A response with its length field (R64). DESIGN CHOICE (notes/assumptions/17.md): R69 does not say what answers a
result of more than 65535 bytes, which only `B24ENC` under capacities above the defaults can have; here the data stays
whole and `rlen` is its length modulo 65536. -/
def mkResponse (status : Byte) (rdata : Bytes) : Response :=
  { status := status, rlen := BitVec.ofNat 16 rdata.length, rdata := rdata }

/-- The bytes of a response frame (R64). -/
def Response.toFrame (r : Response) : Bytes := r.status :: (u16Bytes r.rlen ++ r.rdata)

/-- `respond(status, rdata)`: the response is delivered to the host (R15, R64). -/
def State.respond (s : State) (status : Byte) (rdata : Bytes) : State :=
  { s with responses := s.responses ++ [mkResponse status rdata] }

/-- Taking the fault (R252): `FCAUSE <- code(cause)`, and the response is that code with no data. Nothing else is
saved and control goes nowhere. -/
def State.raiseFault (s : State) (cause : FaultCause) : State :=
  { s with fcause := cause.code }.respond cause.code []

/-- Reset, the only return from the fault: `FCAUSE <- 0x00` and nothing else (R255, R280). -/
def State.resetEvent (s : State) : State := { s with fcause := 0x00#8 }

/-- Deliver a reply: a result and a recoverable error leave `FCAUSE` (R70), a fault is taken. -/
def State.deliver (s : State) : Reply → State
  | .ok rdata => s.respond statusOk rdata
  | .err kind => s.respond kind.code []
  | .fault cause => s.raiseFault cause

/-- Complete a command with its reply, in one step; a Faulted block executes nothing (R48, R250 (1), R254). -/
def complete (r : Reply) (s : State) : Host.Outcome State Fault Refusal :=
  if s.Idle then .next (s.deliver r) else .fault (.blockFaulted s.fcause)

end Sys2Proof.Machine
end

