-- ==== Sys2Proof/Machine/Operands.lean ====
section
/-! DEFINITION. The capacity tests on operands and results (spec/30_encoding.md R69, spec/60_exceptions.md R249,
R250). The operand fields themselves are unsigned and used as they stand (R68); the masks of `netid`, `count` and
`index` are in `pack` (spec/42_prefix.md R141). -/

namespace Sys2Proof.Machine

/-- A length is over a capacity; an unbounded capacity (`none`) is never exceeded (R69). -/
def exceeds (n : Nat) : Option Nat → Bool
  | none => false
  | some cap => decide (cap < n)

/-- A capacity test: beyond it the answer is `ERR_CAPACITY` and nothing else. On operands it comes before the unit
function, on a result after it (R69, R250 (4), (6)). -/
def guardCapacity : (tooLong : Bool) → Reply → Reply
  | true, _ => .err .capacity
  | false, r => r

/-- The reply of a unit function's outcome (R13, R70). -/
def Reply.ofUnit : Except ErrKind Bytes → Reply
  | .ok r => .ok r
  | .error k => .err k

/-- The result capacity test (R69, R250 (6)). -/
def guardResult (cap : Option Nat) : Reply → Reply
  | .ok r => guardCapacity (exceeds r.length cap) (.ok r)
  | .err k => .err k
  | .fault c => .fault c

end Sys2Proof.Machine
end

