-- ==== Sys2Proof/Machine/ShareCombiner.lean ====
section
/-! DEFINITION. share_xor_combiner (spec/45_share_combiner.md): SHXOR. -/

namespace Sys2Proof.Machine

/-- The exclusive-or of two buffers byte by byte at equal indices (R220). -/
def xorBytes (a b : Bytes) : Bytes := List.zipWith (· ^^^ ·) a b

/-- `combineShares`, for at least one share (R220). -/
def combineShares : List Bytes → Bytes
  | [] => []
  | s :: rest => rest.foldl xorBytes s

/-- The reply of `SHXOR` (R221). -/
def shxorReply (shares : List Bytes) : Reply := .ok (combineShares shares)

/-- `SHXOR` (R221). -/
def execShxor (shares : List Bytes) (s : State) : Host.Outcome State Fault Refusal :=
  complete (shxorReply shares) s

end Sys2Proof.Machine
end

