-- ==== Sys2Proof/Machine/Base24.lean ====
section
/-! DEFINITION. base24_encoder and base24_decoder (spec/40_base24.md): B24ENC, B24DEC, B24DECL. -/

namespace Sys2Proof.Machine

/-- `ALPHABET[d]`, for `d` below 24 (R106). -/
def symOf (a : Alphabet) (d : Nat) : Sym := a.codes.getD d 0#8

/-- The index of a symbol in `ALPHABET`, by exact comparison of codes; `none` is absent (R106). -/
def symIndex (a : Alphabet) (c : Sym) : Option Nat := a.codes.findIdx? (· == c)

/-- The indices of all symbols of a string, or `none` when any is absent (R102). -/
def symIndices (a : Alphabet) : Syms → Option (List Nat)
  | [] => some []
  | c :: cs =>
    match symIndex a c, symIndices a cs with
    | some d, some ds => some (d :: ds)
    | _, _ => none

/-- `lzs(s)`, the number of leading symbols equal to `ALPHABET[0]` (R12). -/
def lzs (a : Alphabet) (s : Syms) : Nat := (s.takeWhile (· == symOf a 0)).length

/-- `encodeDigits(b)`: one 0 for each leading zero byte, then the base-24 expansion of the value (R100). -/
def encodeDigits (b : Bytes) : List Nat := List.replicate (lz b) 0 ++ digitsOf base24 (be b)

/-- `encode : Bytes -> Syms` (R100). -/
def b24encode (a : Alphabet) (b : Bytes) : Syms := (encodeDigits b).map (symOf a)

/-- `decode : Syms x optional length -> Ok(Bytes) | Err` (R102): the whole string is looked up before any length is
compared. -/
def b24decode (a : Alphabet) (s : Syms) (explen : Option Nat) : Except ErrKind Bytes :=
  match symIndices a s with
  | none => .error .invalidSymbol
  | some ds =>
    let r := List.replicate (lzs a s) 0#8 ++ minBytes (ofDigits base24 ds)
    match explen with
    | none => .ok r
    | some n => if r.length = n then .ok r else .error .lengthMismatch

/-- The reply of `B24ENC` (R101). -/
def b24encReply (c : Config) (data : Bytes) : Reply :=
  guardCapacity (exceeds data.length c.caps.maxBytes)
    (guardResult c.caps.maxSyms (.ok (b24encode c.params.alphabet data)))

/-- The reply of `B24DEC` (R104). -/
def b24decReply (c : Config) (str : Syms) : Reply :=
  guardCapacity (exceeds str.length c.caps.maxSyms)
    (guardResult c.caps.maxBytes (.ofUnit (b24decode c.params.alphabet str none)))

/-- The reply of `B24DECL` (R105). -/
def b24declReply (c : Config) (explen : U16) (str : Syms) : Reply :=
  guardCapacity (exceeds str.length c.caps.maxSyms)
    (guardResult c.caps.maxBytes (.ofUnit (b24decode c.params.alphabet str (some explen.toNat))))

/-- `B24ENC` (R101). -/
def execB24enc (data : Bytes) (s : State) : Host.Outcome State Fault Refusal :=
  complete (b24encReply config data) s

/-- `B24DEC` (R104). -/
def execB24dec (str : Syms) (s : State) : Host.Outcome State Fault Refusal :=
  complete (b24decReply config str) s

/-- `B24DECL` (R105). -/
def execB24decl (explen : U16) (str : Syms) (s : State) : Host.Outcome State Fault Refusal :=
  complete (b24declReply config explen str) s

end Sys2Proof.Machine
end

