-- ==== Sys2Proof/Machine/Checksum.lean ====
section
/-! DEFINITION. checksum_hasher_wrapper (spec/43_checksum.md): CKSUM, CKVFY. -/

namespace Sys2Proof.Machine

/-- `doubleDigest(x) = SHA256(SHA256(x))` (R160). -/
def doubleDigest (p : OpenParams) (x : Bytes) : Vector Byte 32 := p.sha256 (p.sha256 x).toList

/-- `compute`: the top 20 bits of the double digest of `prefix ‖ secret`, in 3 bytes whose last nibble is zero
(R161). -/
def computeChecksum (p : OpenParams) (pfx : U16) (secret : Bytes) : Bytes :=
  let d := doubleDigest p (u16Bytes pfx ++ secret)
  [d[0], d[1], d[2] &&& 0xF0#8]

/-- `validate`: equality of all three bytes with the recomputed ones (R163). -/
def validateChecksum (p : OpenParams) (pfx : U16) (secret embedded : Bytes) : Except ErrKind Unit :=
  if computeChecksum p pfx secret = embedded then .ok () else .error .checksumMismatch

/-- The reply of `CKSUM` (R162). -/
def cksumReply (c : Config) (pfx : U16) (secret : Bytes) : Reply := .ok (computeChecksum c.params pfx secret)

/-- The reply of `CKVFY` (R164). -/
def ckvfyReply (c : Config) (pfx : U16) (secret embedded : Bytes) : Reply :=
  match validateChecksum c.params pfx secret embedded with
  | .ok () => .ok []
  | .error k => .err k

/-- `CKSUM` (R162). -/
def execCksum (pfx : U16) (secret : Bytes) (s : State) : Host.Outcome State Fault Refusal :=
  complete (cksumReply config pfx secret) s

/-- `CKVFY` (R164). -/
def execCkvfy (pfx : U16) (secret embedded : Bytes) (s : State) : Host.Outcome State Fault Refusal :=
  complete (ckvfyReply config pfx secret embedded) s

end Sys2Proof.Machine
end

