-- ==== Sys2Proof/Machine/NibbleShift.lean ====
section
/-! DEFINITION. nibble_shift_multiply and nibble_shift_divide (spec/41_nibble_shift.md): NSMUL, NSDIV. -/

namespace Sys2Proof.Machine

/-- `shiftLeft4`: times 16 at the same width; `Overflow` when the top nibble of the first byte is not zero; the empty
buffer is returned (R120, R126). -/
def shiftLeft4 (b : Bytes) : Except ErrKind Bytes :=
  match b with
  | [] => .ok []
  | first :: _ => if first >>> 4 ≠ 0#8 then .error .overflow else .ok (bytesN b.length (16 * be b))

/-- `shiftRight4`: floor division by 16 at the same width (R122, R126). -/
def shiftRight4 (b : Bytes) : Bytes := bytesN b.length (be b / 16)

/-- The reply of `NSMUL` (R121). -/
def nsmulReply (c : Config) (data : Bytes) : Reply :=
  guardCapacity (exceeds data.length c.caps.maxBytes) (.ofUnit (shiftLeft4 data))

/-- The reply of `NSDIV` (R123). -/
def nsdivReply (c : Config) (data : Bytes) : Reply :=
  guardCapacity (exceeds data.length c.caps.maxBytes) (.ok (shiftRight4 data))

/-- `NSMUL` (R121). -/
def execNsmul (data : Bytes) (s : State) : Host.Outcome State Fault Refusal :=
  complete (nsmulReply config data) s

/-- `NSDIV` (R123). -/
def execNsdiv (data : Bytes) (s : State) : Host.Outcome State Fault Refusal :=
  complete (nsdivReply config data) s

end Sys2Proof.Machine
end

