-- ==== Sys2Proof/Machine/PrefixUnit.lean ====
section
/-! DEFINITION. prefix_packer and prefix_unpacker (spec/42_prefix.md): PFXPACK, PFXVFY, PFXUNPK. -/

namespace Sys2Proof.Machine

/-- `pack(netid, shareCount, shareIndex)`, total, with its masks (R140, R141). -/
def pack (netid shareCount shareIndex : Nat) : U16 :=
  BitVec.ofNat 16 (netid % 1024 * 64 + (shareCount + 7) % 8 * 8 + shareIndex % 8)

/-- `verify`: equality of all 16 bits with the packed word (R143). -/
def verifyPrefix (actual : U16) (netid shareCount shareIndex : Nat) : Except ErrKind Unit :=
  if actual = pack netid shareCount shareIndex then .ok () else .error .prefixMismatch

/-- The fields of a word, `netid:u16 ‖ count:u8 ‖ index:u8` (R65, R145). -/
def unpackFields (word : U16) : Bytes :=
  u16Bytes (BitVec.ofNat 16 (word.toNat / 64)) ++
    [BitVec.ofNat 8 (word.toNat / 8 % 8 + 1), BitVec.ofNat 8 (word.toNat % 8)]

/-- The reply of `PFXPACK` (R142). -/
def pfxpackReply (netid : U16) (count index : Byte) : Reply :=
  .ok (u16Bytes (pack netid.toNat count.toNat index.toNat))

/-- The reply of `PFXVFY` (R144). -/
def pfxvfyReply (actual netid : U16) (count index : Byte) : Reply :=
  match verifyPrefix actual netid.toNat count.toNat index.toNat with
  | .ok () => .ok []
  | .error k => .err k

/-- The reply of `PFXUNPK` (R145). -/
def pfxunpkReply (word : U16) : Reply := .ok (unpackFields word)

/-- `PFXPACK` (R142). -/
def execPfxpack (netid : U16) (count index : Byte) (s : State) : Host.Outcome State Fault Refusal :=
  complete (pfxpackReply netid count index) s

/-- `PFXVFY` (R144). -/
def execPfxvfy (actual netid : U16) (count index : Byte) (s : State) : Host.Outcome State Fault Refusal :=
  complete (pfxvfyReply actual netid count index) s

/-- `PFXUNPK` (R145). -/
def execPfxunpk (word : U16) (s : State) : Host.Outcome State Fault Refusal :=
  complete (pfxunpkReply word) s

end Sys2Proof.Machine
end

