-- ==== Sys2Proof/Machine/Transport.lean ====
section
/-! DEFINITION. transport_cipher_wrapper (spec/44_transport.md): TKENC, TKDEC, TKDECSH. -/

namespace Sys2Proof.Machine

/-- The 5-byte salt: the 20-bit checksum value twice (R191). -/
def saltOf (checksum : Bytes) : Bytes :=
  let cv := be checksum >>> 4
  bytesN saltLen (cv ||| cv <<< 20)

/-- `deriveKeys(pin, checksum)`: the keys `k1` and `k2` (R192, R196). -/
def deriveKeys (p : OpenParams) (pin checksum : Bytes) : Vector Byte 32 × Vector Byte 32 :=
  let stretched := p.scrypt pin (saltOf checksum) kdfN kdfR kdfP kdfOut
  let digest := (p.sha512 stretched.toList).toList
  (toVec 32 (slice digest 0 32), toVec 32 (slice digest 32 64))

/-- `ENCBLK` on a 16-byte buffer (R182). -/
def encBlock (p : OpenParams) (k : Vector Byte 32) (b : Bytes) : Bytes := (p.cipher.enc k (toVec 16 b)).toList

/-- `DECBLK` on a 16-byte buffer (R183). -/
def decBlock (p : OpenParams) (k : Vector Byte 32) (b : Bytes) : Bytes := (p.cipher.dec k (toVec 16 b)).toList

/-- The 37-byte `SingleKeyPayload` of a prefix and a 32-byte secret (R184 steps 2 to 6, R185). -/
def payloadOf (p : OpenParams) (pfx : U16) (pin secret : Bytes) : Bytes :=
  let checksum := computeChecksum p pfx secret
  let keys := deriveKeys p pin checksum
  u16Bytes pfx ++ encBlock p keys.1 (slice secret 0 16) ++ encBlock p keys.2 (slice secret 16 32) ++ checksum

/-- `encryptSingle(secret, pin, netid)`, for a 32-byte secret (R184). -/
def encryptSingle (p : OpenParams) (secret pin : Bytes) (netid : Nat) : Syms :=
  b24encode p.alphabet (shiftRight4 (payloadOf p (pack netid 1 0) pin secret))

/-- `openPayload`, the common tail of `decryptSingle` and `decryptShare`, on 37 bytes (R187): the prefix is verified
before any key is derived. -/
def openPayload (p : OpenParams) (payload pin : Bytes) (netid shareCount shareIndex : Nat) : Except ErrKind Bytes := do
  let pfx : U16 := BitVec.ofNat 16 (be (slice payload 0 2))
  let embedded := slice payload 34 37
  verifyPrefix pfx netid shareCount shareIndex
  let keys := deriveKeys p pin embedded
  let secret := decBlock p keys.1 (slice payload 2 18) ++ decBlock p keys.2 (slice payload 18 34)
  validateChecksum p pfx secret embedded
  return secret

/-- `decryptSingle(str, pin, netid)` (R186). -/
def decryptSingle (p : OpenParams) (str : Syms) (pin : Bytes) (netid : Nat) : Except ErrKind Bytes := do
  let shifted ← b24decode p.alphabet str (some payloadLen)
  let payload ← shiftLeft4 shifted
  openPayload p payload pin netid 1 0

/-- `decryptShare(str, pin, shareCount, shareIndex, netid)`, the spec's own reading of the share path (R188,
notes/assumptions/6.md); for a `SHARE_BLOB_LEN` below 37, where R187 has no payload, see notes/assumptions/18.md. -/
def decryptShare (c : Config) (str : Syms) (pin : Bytes) (netid shareCount shareIndex : Nat) : Except ErrKind Bytes := do
  let blob ← b24decode c.params.alphabet str (some c.caps.shareBlobLen)
  let outer ← shiftLeft4 blob
  let payload ← shiftLeft4 (slice outer 0 payloadLen)
  openPayload c.params payload pin netid shareCount shareIndex

/-- The reply of `TKENC` (R193): the length fault comes before the capacity test (R199, R250). -/
def tkencReply (c : Config) (netid : U16) (pin secret : Bytes) : Reply :=
  if secret.length ≠ secretLen then .fault .keyLengthError
  else guardCapacity (exceeds pin.length c.caps.maxPin) (.ok (encryptSingle c.params secret pin netid.toNat))

/-- The reply of `TKDEC` (R194). -/
def tkdecReply (c : Config) (netid : U16) (pin : Bytes) (str : Syms) : Reply :=
  guardCapacity (exceeds pin.length c.caps.maxPin || exceeds str.length c.caps.maxSyms)
    (.ofUnit (decryptSingle c.params str pin netid.toNat))

/-- The reply of `TKDECSH` (R195). -/
def tkdecshReply (c : Config) (netid : U16) (count index : Byte) (pin : Bytes) (str : Syms) : Reply :=
  guardCapacity (exceeds pin.length c.caps.maxPin || exceeds str.length c.caps.maxSyms)
    (.ofUnit (decryptShare c str pin netid.toNat count.toNat index.toNat))

/-- `TKENC` (R193). -/
def execTkenc (netid : U16) (pin secret : Bytes) (s : State) : Host.Outcome State Fault Refusal :=
  complete (tkencReply config netid pin secret) s

/-- `TKDEC` (R194). -/
def execTkdec (netid : U16) (pin : Bytes) (str : Syms) (s : State) : Host.Outcome State Fault Refusal :=
  complete (tkdecReply config netid pin str) s

/-- `TKDECSH` (R195). -/
def execTkdecsh (netid : U16) (count index : Byte) (pin : Bytes) (str : Syms) (s : State) :
    Host.Outcome State Fault Refusal :=
  complete (tkdecshReply config netid count index pin str) s

end Sys2Proof.Machine
end

