-- ==== Sys2Proof/Machine/Dispatch.lean ====
section
/-! DEFINITION. One arm per command: its meaning (spec/30_encoding.md R66, last column). -/

namespace Sys2Proof.Machine

/-- What a command does (R70: the fault condition, the operand capacity, the pipeline and the result capacity are in
each meaning, in that order). -/
def exec (i : Instr) (s : State) : Host.Outcome State Fault Refusal :=
  match i with
  | .b24enc data => Sys2Proof.Machine.execB24enc data s
  | .b24dec str => Sys2Proof.Machine.execB24dec str s
  | .b24decl explen str => Sys2Proof.Machine.execB24decl explen str s
  | .nsmul data => Sys2Proof.Machine.execNsmul data s
  | .nsdiv data => Sys2Proof.Machine.execNsdiv data s
  | .pfxpack netid count index => Sys2Proof.Machine.execPfxpack netid count index s
  | .pfxvfy actual netid count index => Sys2Proof.Machine.execPfxvfy actual netid count index s
  | .pfxunpk word => Sys2Proof.Machine.execPfxunpk word s
  | .cksum pfx secret => Sys2Proof.Machine.execCksum pfx secret s
  | .ckvfy pfx secret embedded => Sys2Proof.Machine.execCkvfy pfx secret embedded s
  | .tkenc netid pin secret => Sys2Proof.Machine.execTkenc netid pin secret s
  | .tkdec netid pin str => Sys2Proof.Machine.execTkdec netid pin str s
  | .tkdecsh netid count index pin str => Sys2Proof.Machine.execTkdecsh netid count index pin str s
  | .shxor shares => Sys2Proof.Machine.execShxor shares s

end Sys2Proof.Machine
end

