-- ==== Sys2Proof/WellFormed.lean ====
section
/-! DEFINITION. Which commands a frame can carry (spec/30_encoding.md R61 to R63): a run measured by a `u16` length
field has at most 65535 bytes, fixed runs have their length, and `SHXOR` has 1 to `MAXSHARES` shares of 32 bytes, the
capacity being the configuration's (spec/00_scope.md R8). -/

namespace Sys2Proof

/-- The length of the run fits the `u16` length field before it (R61). -/
def fitsU16 (b : Bytes) : Bool := b.length < 65536

/-- The operands have the lengths their format can express under a configuration. -/
def Instr.wellFormedWith (c : Config) : Instr → Bool
  | .b24enc data => fitsU16 data
  | .b24dec str => fitsU16 str
  | .b24decl _ str => fitsU16 str
  | .nsmul data => fitsU16 data
  | .nsdiv data => fitsU16 data
  | .pfxpack _ _ _ => true
  | .pfxvfy _ _ _ _ => true
  | .pfxunpk _ => true
  | .cksum _ secret => secret.length == Machine.secretLen
  | .ckvfy _ secret embedded => secret.length == Machine.secretLen && embedded.length == Machine.checksumLen
  | .tkenc _ pin secret => fitsU16 pin && fitsU16 secret
  | .tkdec _ pin str => fitsU16 pin && fitsU16 str
  | .tkdecsh _ _ _ pin str => fitsU16 pin && fitsU16 str
  | .shxor shares =>
    decide (1 ≤ shares.length) && decide (shares.length ≤ c.caps.maxShares) &&
      shares.all (fun s => s.length == Machine.secretLen)

/-- Well-formed under the machine's configuration. -/
abbrev Instr.wellFormed (i : Instr) : Bool := i.wellFormedWith Machine.config

end Sys2Proof
end

