-- ==== Sys2Proof/Decode.lean ====
section
/-! DEFINITION. The decoder of command frames, total on any bytes and rejecting by name (spec/30_encoding.md R60 to
R63, R66, R67), then the encoder from the same tables, the frame length of a format (R62), and the two functions that
read a word of spec/opcode_table.json as a frame. -/

namespace Sys2Proof

/-- Why a frame is malformed (R63): (a) empty, (b) reserved opcode, (c) a field runs past the end, (d) bytes remain
after the last field, (e) a share count of 0 or above `MAXSHARES`. All raise the one fault `IllegalCommand`. -/
inductive Malformed where
  | emptyFrame
  | reservedOpcode (op : Byte)
  | truncated
  | trailingBytes
  | shareCount (n : Byte)
  deriving DecidableEq, Repr

/-- Read a `u8` (R61). -/
def readU8 : Bytes → Except Malformed (Byte × Bytes)
  | [] => .error .truncated
  | b :: rest => .ok (b, rest)

/-- Read a big-endian `u16` (R61). -/
def readU16 : Bytes → Except Malformed (U16 × Bytes)
  | hi :: lo :: rest => .ok (Machine.u16Of hi lo, rest)
  | _ => .error .truncated

/-- Read `bytes(k)` or `syms(k)` (R61). -/
def readRun (k : Nat) (f : Bytes) : Except Malformed (Bytes × Bytes) :=
  if k ≤ f.length then .ok (f.take k, f.drop k) else .error .truncated

/-- Read a `u16` length field and the run it measures (R61). -/
def readMeasured (f : Bytes) : Except Malformed (Bytes × Bytes) :=
  match readU16 f with
  | .ok (k, rest) => readRun k.toNat rest
  | .error e => .error e

/-- Read `n` shares of 32 bytes (R62, format XOR). -/
def readShares : Nat → Bytes → Except Malformed (List Bytes × Bytes)
  | 0, f => .ok ([], f)
  | n + 1, f =>
    match readRun Machine.secretLen f with
    | .error e => .error e
    | .ok (s, rest) =>
      match readShares n rest with
      | .error e => .error e
      | .ok (ss, rest') => .ok (s :: ss, rest')

/-- The frame ends with its last field (R63 (d)). -/
def endFrame (i : Instr) : Bytes → Except Malformed Instr
  | [] => .ok i
  | _ :: _ => .error .trailingBytes

/-- Read the fields of the format that the opcode selects, left to right (R62, R63, R66); the one
parameter it reads is `MAXSHARES` (R8, R63 (e)). -/
def decodeBody (cfg : Config) (op : Byte) (f : Bytes) : Except Malformed Instr :=
  match op.toNat with
  | 0x01 => do let (d, f) ← readMeasured f; endFrame (.b24enc d) f
  | 0x02 => do let (s, f) ← readMeasured f; endFrame (.b24dec s) f
  | 0x03 => do let (e, f) ← readU16 f; let (s, f) ← readMeasured f; endFrame (.b24decl e s) f
  | 0x04 => do let (d, f) ← readMeasured f; endFrame (.nsmul d) f
  | 0x05 => do let (d, f) ← readMeasured f; endFrame (.nsdiv d) f
  | 0x06 => do let (n, f) ← readU16 f; let (c, f) ← readU8 f; let (x, f) ← readU8 f; endFrame (.pfxpack n c x) f
  | 0x07 => do
    let (a, f) ← readU16 f; let (n, f) ← readU16 f; let (c, f) ← readU8 f; let (x, f) ← readU8 f
    endFrame (.pfxvfy a n c x) f
  | 0x08 => do let (w, f) ← readU16 f; endFrame (.pfxunpk w) f
  | 0x09 => do let (p, f) ← readU16 f; let (s, f) ← readRun Machine.secretLen f; endFrame (.cksum p s) f
  | 0x0A => do
    let (p, f) ← readU16 f; let (s, f) ← readRun Machine.secretLen f; let (e, f) ← readRun Machine.checksumLen f
    endFrame (.ckvfy p s e) f
  | 0x0B => do
    let (n, f) ← readU16 f; let (p, f) ← readMeasured f; let (s, f) ← readMeasured f
    endFrame (.tkenc n p s) f
  | 0x0C => do
    let (n, f) ← readU16 f; let (p, f) ← readMeasured f; let (s, f) ← readMeasured f
    endFrame (.tkdec n p s) f
  | 0x0D => do
    let (n, f) ← readU16 f; let (c, f) ← readU8 f; let (x, f) ← readU8 f
    let (p, f) ← readMeasured f; let (s, f) ← readMeasured f
    endFrame (.tkdecsh n c x p s) f
  | 0x0E => do
    let (n, f) ← readU8 f
    if n.toNat = 0 ∨ cfg.caps.maxShares < n.toNat then .error (.shareCount n)
    else do let (ss, f) ← readShares n.toNat f; endFrame (.shxor ss) f
  | _ => .error (.reservedOpcode op)

/-- The decoder under a configuration: `F[0]` is the opcode, the rest is the body (R60, R63). -/
def decodeWith (c : Config) : Bytes → Except Malformed Instr
  | [] => .error .emptyFrame
  | op :: body => decodeBody c op body

/-- The machine's decoder. -/
abbrev decode (f : Bytes) : Except Malformed Instr := decodeWith Machine.config f

/-- The opcode of a command (R66). -/
def Instr.opcode : Instr → Byte
  | .b24enc _ => 0x01#8
  | .b24dec _ => 0x02#8
  | .b24decl _ _ => 0x03#8
  | .nsmul _ => 0x04#8
  | .nsdiv _ => 0x05#8
  | .pfxpack _ _ _ => 0x06#8
  | .pfxvfy _ _ _ _ => 0x07#8
  | .pfxunpk _ => 0x08#8
  | .cksum _ _ => 0x09#8
  | .ckvfy _ _ _ => 0x0A#8
  | .tkenc _ _ _ => 0x0B#8
  | .tkdec _ _ _ => 0x0C#8
  | .tkdecsh _ _ _ _ _ => 0x0D#8
  | .shxor _ => 0x0E#8

/-- A run with its `u16` length field before it (R61). -/
def measured (b : Bytes) : Bytes := Machine.u16Bytes (BitVec.ofNat 16 b.length) ++ b

/-- The body of a command's frame, field by field (R62). -/
def encodeBody : Instr → Bytes
  | .b24enc data => measured data
  | .b24dec str => measured str
  | .b24decl explen str => Machine.u16Bytes explen ++ measured str
  | .nsmul data => measured data
  | .nsdiv data => measured data
  | .pfxpack netid count index => Machine.u16Bytes netid ++ [count, index]
  | .pfxvfy actual netid count index => Machine.u16Bytes actual ++ Machine.u16Bytes netid ++ [count, index]
  | .pfxunpk word => Machine.u16Bytes word
  | .cksum pfx secret => Machine.u16Bytes pfx ++ secret
  | .ckvfy pfx secret embedded => Machine.u16Bytes pfx ++ secret ++ embedded
  | .tkenc netid pin secret => Machine.u16Bytes netid ++ measured pin ++ measured secret
  | .tkdec netid pin str => Machine.u16Bytes netid ++ measured pin ++ measured str
  | .tkdecsh netid count index pin str => Machine.u16Bytes netid ++ [count, index] ++ measured pin ++ measured str
  | .shxor shares => BitVec.ofNat 8 shares.length :: shares.flatten

/-- The frame of a command (R60). -/
def encode (i : Instr) : Bytes := i.opcode :: encodeBody i

/-- The byte of a frame at an offset, and 0 past its end. -/
def byteAt (f : Bytes) (o : Nat) : Nat := (f.getD o 0#8).toNat

/-- The `u16` of a frame at an offset, bytes past its end read as 0. -/
def u16At (f : Bytes) (o : Nat) : Nat := 256 * byteAt f o + byteAt f (o + 1)

/-- The total length R62 gives the format that `F[0]` selects, from the frame's own length fields; `none` for an
empty frame and a reserved opcode. -/
def formatLength (f : Bytes) : Option Nat :=
  match f with
  | [] => none
  | op :: _ =>
    match op.toNat with
    | 0x01 | 0x02 | 0x04 | 0x05 => some (3 + u16At f 1)
    | 0x03 => some (5 + u16At f 3)
    | 0x06 => some 5
    | 0x07 => some 7
    | 0x08 => some 3
    | 0x09 => some 35
    | 0x0A => some 38
    | 0x0B | 0x0C => some (7 + u16At f 3 + u16At f (5 + u16At f 3))
    | 0x0D => some (9 + u16At f 5 + u16At f (7 + u16At f 5))
    | 0x0E => some (2 + 32 * byteAt f 1)
    | _ => none

/-- The frame that a word of spec/opcode_table.json stands for: `nbits / 8` bytes, the first in bits 7..0 of `w`, then
zero bytes up to the length its format gives (notes/assumptions/8.md). -/
def tableFrame (nbits w : Nat) : Bytes :=
  let bytes := (List.range (nbits / 8)).map (fun k => BitVec.ofNat 8 (w >>> (8 * k)))
  match formatLength bytes with
  | none => bytes
  | some n => bytes ++ List.replicate (n - bytes.length) 0#8

/-- The command the decoder reads from the word `w` of `nbits` bits; `none` where it rejects the frame. -/
def decodeTableWord (nbits w : Nat) : Option Instr :=
  match decode (tableFrame nbits w) with
  | .ok i => some i
  | .error _ => none

end Sys2Proof
end

