-- ==== Sys2Proof/Machine/ExecWith.lean ====
section
/-! DEFINITION. The commands of an instance with any configuration: the alphabet, the collaborators and the capacities
are parameters, fixed for the life of the instance (spec/10_state.md R29). The machine's own `exec` is the instance with
`config`. -/

namespace Sys2Proof.Machine

/-- The reply of a command under a configuration (R70): it depends on these two alone (R27, R29). -/
def replyWith (c : Config) : Instr → Reply
  | .b24enc data => b24encReply c data
  | .b24dec str => b24decReply c str
  | .b24decl explen str => b24declReply c explen str
  | .nsmul data => nsmulReply c data
  | .nsdiv data => nsdivReply c data
  | .pfxpack netid count index => pfxpackReply netid count index
  | .pfxvfy actual netid count index => pfxvfyReply actual netid count index
  | .pfxunpk word => pfxunpkReply word
  | .cksum pfx secret => cksumReply c pfx secret
  | .ckvfy pfx secret embedded => ckvfyReply c pfx secret embedded
  | .tkenc netid pin secret => tkencReply c netid pin secret
  | .tkdec netid pin str => tkdecReply c netid pin str
  | .tkdecsh netid count index pin str => tkdecshReply c netid count index pin str
  | .shxor shares => shxorReply shares

/-- A command of the instance with configuration `c`. -/
def execWith (c : Config) (i : Instr) (s : State) : Host.Outcome State Fault Refusal :=
  complete (replyWith c i) s

end Sys2Proof.Machine
end

