-- ==== Sys2Proof/Machine/Sequencer.lean ====
section
/-! DEFINITION. What a step does with the host's next event (spec/30_encoding.md R70, spec/60_exceptions.md R254,
R255, spec/70_reset_and_hazards.md R280, R283), for an instance with configuration `c` whose commands are executed by `ex`
(spec/10_state.md R29), and the step of such an instance. -/

namespace Sys2Proof.Machine

section
variable (c : Config) (ex : Instr → State → Host.Outcome State Fault Refusal)

/-- An Idle block and a frame: a malformed frame raises `IllegalCommand` (R63, R253), any other is executed (R70). -/
def runFrame (f : Bytes) (s : State) : Host.Outcome State Fault Refusal :=
  match decodeWith c f with
  | .error _ => complete (.fault .illegalCommand) s
  | .ok i => ex i s

/-- The Idle block: it executes the next frame, takes a reset, or waits while the host presents nothing
(notes/assumptions/3.md). -/
def runIdle (s : State) : Host.Outcome State Fault Refusal :=
  match s.inbox with
  | [] => .next s
  | .reset :: rest => .next { s with inbox := rest }.resetEvent
  | .frame f :: rest => runFrame c ex f { s with inbox := rest }

/-- The host's events after its next reset, or `none` when it asserts none. -/
def afterReset : List HostEvent → Option (List HostEvent)
  | [] => none
  | .reset :: rest => some rest
  | .frame _ :: rest => afterReset rest

/-- The Faulted block (R254, R255): a frame has no step and no response, so the only step is the host's next reset;
without one the block is stuck (notes/assumptions/2.md). -/
def runFaulted (s : State) : Host.Outcome State Fault Refusal :=
  match afterReset s.inbox with
  | none => .fault (.blockFaulted s.fcause)
  | some rest => .next { s with inbox := rest }.resetEvent

/-- One step: Idle and Faulted are the two situations of R24 (R70). -/
def stepBy (s : State) : Host.Outcome State Fault Refusal :=
  if s.Idle then runIdle c ex s else runFaulted s

/-- The step of the instance with configuration `c`, a parameter of the step (R29). -/
def stepWith (s : State) : Host.Outcome State Fault Refusal := stepBy c (execWith c) s

end

end Sys2Proof.Machine
end

