-- ==== Sys2Proof/Machine/Step.lean ====
section
/-! DEFINITION. The step of the machine (spec/30_encoding.md R70) and the placing of a table word where a step takes
its next frame. -/

namespace Sys2Proof.Machine

/-- One step of the machine: the configuration is `config`, the commands are those of `exec` (R29, R70). -/
def step (s : State) : Host.Outcome State Fault Refusal :=
  stepBy config exec s

/-- The frame of a table word presented as the host's very next event (notes/assumptions/8.md). -/
def State.withFetchWord (s : State) (nbits w : Nat) : State :=
  { s with inbox := .frame (tableFrame nbits w) :: s.inbox }

end Sys2Proof.Machine
end

