-- ==== Sys2Proof/Safety.lean ====
section
/-! DEFINITION. The terms in which claims about runs are made: legal values of `FCAUSE` and of a status, well-formed
responses, the invariant, the good end of a run, and the tables of spec/30_encoding.md R63 and R65 and
spec/60_exceptions.md R260 written apart from the decoder and the meanings. -/

namespace Sys2Proof.Machine

/-- The values R24 gives `FCAUSE`. -/
abbrev LegalFcause (v : BitVec 8) : Prop := v = 0x00#8 ∨ v = 0x80#8 ∨ v = 0x81#8

/-- The codes of R240; "all other codes are never produced". -/
abbrev LegalStatus (v : Byte) : Prop :=
  v ∈ [0x00#8, 0x01#8, 0x02#8, 0x03#8, 0x04#8, 0x05#8, 0x06#8, 0x80#8, 0x81#8]

/-- A response frame as R64 has it: a code of R240, the length of its data, and no data unless it is `OK`. -/
abbrev Response.WellFormed (r : Response) : Prop :=
  LegalStatus r.status ∧ r.rlen.toNat = r.rdata.length ∧ (r.status ≠ 0x00#8 → r.rdata = [])

/-- The invariant of the machine: `FCAUSE` is legal (R24), every response is well-formed (R64), and a Faulted block's
last response is the fault that stopped it (R252, R254). -/
structure State.Inv (s : State) : Prop where
  fcause_legal : LegalFcause s.fcause
  responses_wf : ∀ r ∈ s.responses, r.WellFormed
  faulted_last : s.fcause ≠ 0x00#8 → ∃ r, s.responses.getLast? = some r ∧ r.status = s.fcause

/-- A run has ended well when the block is Idle and the host has nothing more to do (R291). -/
abbrev State.GoodEnd (s : State) : Prop := s.Idle ∧ s.inbox = []

/-- A frame is malformed (R63): (a) empty or (b) a reserved opcode (no format), (c), (d) another length than its
format's total, (e) a share count of 0 or above `MAXSHARES`, which is 8 in the machine's configuration. -/
abbrev IsMalformed (f : Bytes) : Prop :=
  formatLength f = none ∨ formatLength f ≠ some f.length ∨
    (byteAt f 0 = 0x0E ∧ (byteAt f 1 = 0 ∨ 8 < byteAt f 1))

/-- The statuses that R260 marks possible for a command, the column of malformed frames (81) apart. -/
def possibleStatuses : Instr → List Byte
  | .b24enc _ => [0x00#8, 0x06#8]
  | .b24dec _ => [0x00#8, 0x01#8, 0x06#8]
  | .b24decl _ _ => [0x00#8, 0x01#8, 0x02#8, 0x06#8]
  | .nsmul _ => [0x00#8, 0x03#8, 0x06#8]
  | .nsdiv _ => [0x00#8, 0x06#8]
  | .pfxpack _ _ _ => [0x00#8]
  | .pfxvfy _ _ _ _ => [0x00#8, 0x04#8]
  | .pfxunpk _ => [0x00#8]
  | .cksum _ _ => [0x00#8]
  | .ckvfy _ _ _ => [0x00#8, 0x05#8]
  | .tkenc _ _ _ => [0x00#8, 0x06#8, 0x80#8]
  | .tkdec _ _ _ => [0x00#8, 0x01#8, 0x02#8, 0x03#8, 0x04#8, 0x05#8, 0x06#8]
  | .tkdecsh _ _ _ _ _ => [0x00#8, 0x01#8, 0x02#8, 0x03#8, 0x04#8, 0x05#8, 0x06#8]
  | .shxor _ => [0x00#8]

/-- The lengths that R45 and R65 allow an `OK` result of a command. -/
def resultLengthOk : Instr → Nat → Prop
  | .b24enc _, n => n ≤ 112
  | .b24dec _, n => n ≤ 64
  | .b24decl explen _, n => n = explen.toNat ∧ n ≤ 64
  | .nsmul data, n => n = data.length
  | .nsdiv data, n => n = data.length
  | .pfxpack _ _ _, n => n = 2
  | .pfxvfy _ _ _ _, n => n = 0
  | .pfxunpk _, n => n = 4
  | .cksum _ _, n => n = 3
  | .ckvfy _ _ _, n => n = 0
  | .tkenc _ _ _, n => n ≤ 64
  | .tkdec _ _ _, n => n = 32
  | .tkdecsh _ _ _ _ _, n => n = 32
  | .shxor _, n => n = 32

end Sys2Proof.Machine
end

