-- ==== Sys2Proof/Certificates/Slice0/Obligations.lean ====
section
/-! DEFINITION. The statements about the model, one `def Obligations.<Name> : Prop` each; OBLIGATIONS.json gives their
rules. `s.respond st d` is the state `s` with ONE response of status `st` and data `d` delivered and nothing else
changed, so an equality with it is a command's whole frame: `FCAUSE`, the host's events and the earlier responses are
as before. -/

open Sys2Proof Sys2Proof.Machine

/-! ## Encoding -/

/-- Every well-formed command is the decoding of its own frame (R60 to R63, R66). -/
def Obligations.DecodeInvertsEncode : Prop :=
  ∀ i : Instr, i.wellFormed = true → decode (encode i) = .ok i

/-- A frame the decoder accepts is the frame of the command it names, and that command is well-formed: no two frames
carry one command and no byte of a frame is dropped (R60 to R63). -/
def Obligations.DecodeAcceptsOnlyEncodings : Prop :=
  ∀ (f : Bytes) (i : Instr), decode f = .ok i → i.wellFormed = true ∧ encode i = f

/-- Worked frames of R72, byte for byte. -/
def Obligations.WorkedFramesDecode : Prop :=
  decode [0x01#8, 0x00#8, 0x02#8, 0x00#8, 0xff#8] = .ok (.b24enc [0x00#8, 0xff#8]) ∧
  decode [0x02#8, 0x00#8, 0x03#8, 0x30#8, 0x61#8, 0x66#8] = .ok (.b24dec [0x30#8, 0x61#8, 0x66#8]) ∧
  decode [0x03#8, 0x00#8, 0x02#8, 0x00#8, 0x03#8, 0x30#8, 0x61#8, 0x66#8] = .ok (.b24decl 2#16 [0x30#8, 0x61#8, 0x66#8]) ∧
  decode [0x04#8, 0x00#8, 0x03#8, 0x0a#8, 0xbc#8, 0xde#8] = .ok (.nsmul [0x0a#8, 0xbc#8, 0xde#8]) ∧
  decode [0x05#8, 0x00#8, 0x03#8, 0xab#8, 0xcd#8, 0xef#8] = .ok (.nsdiv [0xab#8, 0xcd#8, 0xef#8]) ∧
  decode [0x06#8, 0x01#8, 0x28#8, 0x01#8, 0x00#8] = .ok (.pfxpack 0x128#16 1#8 0#8) ∧
  decode [0x07#8, 0x4a#8, 0x00#8, 0x01#8, 0x28#8, 0x01#8, 0x00#8] = .ok (.pfxvfy 0x4a00#16 0x128#16 1#8 0#8) ∧
  decode [0x08#8, 0x4a#8, 0x11#8] = .ok (.pfxunpk 0x4a11#16)

/-- R63: the decoder rejects exactly the malformed frames, and an Idle block answers each with the fault
`IllegalCommand`. -/
def Obligations.MalformedFrameFaults : Prop :=
  ∀ f : Bytes, ((∃ e, decode f = .error e) ↔ IsMalformed f) ∧
    ∀ (s : State) (rest : List HostEvent), s.fcause = 0x00#8 → s.inbox = .frame f :: rest → IsMalformed f →
      step s = .next { fcause := 0x81#8, inbox := rest, responses := s.responses ++ [⟨0x81#8, 0#16, []⟩] }

/-- R67: opcodes 0x00 and 0x0F to 0xFF fault whatever follows them. -/
def Obligations.ReservedOpcodeFaults : Prop :=
  ∀ (op : Byte) (body : Bytes) (s : State) (rest : List HostEvent), op = 0x00#8 ∨ 0x0F ≤ op.toNat →
    s.fcause = 0x00#8 → s.inbox = .frame (op :: body) :: rest →
      step s = .next { fcause := 0x81#8, inbox := rest, responses := s.responses ++ [⟨0x81#8, 0#16, []⟩] }

/-- R63 (e) under every configuration: a frame of `SHXOR` whose count is that of its shares decodes when there are 1 to
`MAXSHARES` shares, and is rejected when there is none or more than `MAXSHARES` (R8). -/
def Obligations.ShareCountBoundedByMaxShares : Prop :=
  ∀ (c : Config) (shares : List Bytes), shares.length ≤ 255 → (∀ x ∈ shares, x.length = 32) →
    (1 ≤ shares.length → shares.length ≤ c.caps.maxShares →
      decodeWith c (encode (.shxor shares)) = .ok (.shxor shares)) ∧
    (shares.length = 0 ∨ c.caps.maxShares < shares.length →
      ∃ e, decodeWith c (encode (.shxor shares)) = .error e)

/-! ## The step, the fault, reset -/

/-- R70: an Idle block whose host presents a frame that decodes to `i` executes `i`, the frame being taken. -/
def Obligations.StepExecutesDecodedFrame : Prop :=
  ∀ (s : State) (f : Bytes) (rest : List HostEvent) (i : Instr), s.fcause = 0x00#8 → s.inbox = .frame f :: rest →
    decode f = .ok i → step s = exec i { s with inbox := rest }

/-- R254: a Faulted block executes no command, has no step while the host asserts no reset, answers nothing, and is
no good end of a run. -/
def Obligations.FaultedBlockTakesNoCommand : Prop :=
  ∀ s : State, s.fcause ≠ 0x00#8 →
    (∀ i : Instr, exec i s = .fault (.blockFaulted s.fcause)) ∧
    (.reset ∉ s.inbox → step s = .fault (.blockFaulted s.fcause)) ∧
    (∀ t, step s = .next t → .reset ∈ s.inbox ∧ t.responses = s.responses) ∧
    ¬ s.GoodEnd

/-- R280: the whole effect of a reset, Idle or Faulted, is `FCAUSE <- 0x00`; a run starts Idle. -/
def Obligations.ResetClearsFcause : Prop :=
  State.reset.fcause = 0x00#8 ∧
  ∀ (s : State) (rest : List HostEvent), s.inbox = .reset :: rest →
    step s = .next { fcause := 0x00#8, inbox := rest, responses := s.responses }

/-- A step out of Faulted takes a reset, clears `FCAUSE` and answers nothing, so no second fault can occur (R255); that
the frames presented before the reset are gone is the model's reading (notes/assumptions/2.md). -/
def Obligations.OnlyResetLeavesFaulted : Prop :=
  ∀ s t : State, s.fcause ≠ 0x00#8 → step s = .next t →
    t.fcause = 0x00#8 ∧ t.responses = s.responses ∧ ∃ pre, s.inbox = pre ++ .reset :: t.inbox

/-- The model's reading (notes/assumptions/2.md): frames presented while Faulted are lost, up to the reset. -/
def Obligations.FramesWhileFaultedAreLost : Prop :=
  ∀ (s : State) (fs : List Bytes) (rest : List HostEvent), s.fcause ≠ 0x00#8 →
    s.inbox = fs.map .frame ++ .reset :: rest →
      step s = .next { fcause := 0x00#8, inbox := rest, responses := s.responses }

/-- R28: the reset value of the one register. -/
def Obligations.ResetStateIsIdle : Prop := State.reset.fcause = 0x00#8

/-- The invariant holds right after reset. -/
def Obligations.InvariantAtReset : Prop := State.reset.Inv

/-- Every step keeps the invariant: legal `FCAUSE` (R24), well-formed responses (R64, R240), and in Faulted the last
response is the fault (R252). -/
def Obligations.InvariantPreserved : Prop := ∀ s t : State, s.Inv → step s = .next t → t.Inv

/-- A step that changes `FCAUSE` either raises a fault, whose response carries the new value, or takes a reset (R24);
that a reset takes with it the frames presented to a Faulted block before it is the model's reading
(notes/assumptions/2.md). -/
def Obligations.FcauseWrittenOnlyByFaultsAndReset : Prop :=
  ∀ s t : State, step s = .next t → t.fcause = s.fcause ∨
    (s.fcause = 0x00#8 ∧ (t.fcause = 0x80#8 ∨ t.fcause = 0x81#8) ∧ t.responses = s.responses ++ [⟨t.fcause, 0#16, []⟩]) ∨
    (t.fcause = 0x00#8 ∧ t.responses = s.responses ∧ ∃ pre, s.inbox = pre ++ .reset :: t.inbox)

/-- An Idle block with nothing presented waits (notes/assumptions/3.md). -/
def Obligations.IdleBlockWaits : Prop :=
  ∀ s : State, s.fcause = 0x00#8 → s.inbox = [] → step s = .next s

/-- R49, over the model's own queues (notes/assumptions/1.md): a step takes the host's events from the front and appends
at most one response; it takes none only when there is none, and then changes nothing. That it may take several, frames
presented to a Faulted block and the reset after them, is the model's reading (notes/assumptions/2.md). -/
def Obligations.StepConsumesEventsInOrder : Prop :=
  ∀ s t : State, step s = .next t →
    ∃ (taken : List HostEvent) (answered : List Response), s.inbox = taken ++ t.inbox ∧
      t.responses = s.responses ++ answered ∧ answered.length ≤ 1 ∧ (taken = [] → s.inbox = [] ∧ t = s)

/-- R49, R291: a run over any list of commands, none a `TKENC` with a secret of another length than 32, ends well with
one response per command, in order, each the one its command gets from a block that was just reset. -/
def Obligations.RunAnswersEveryFrame : Prop :=
  ∀ (is : List Instr) (s : State), (∀ i ∈ is, i.wellFormed = true) →
    (∀ netid pin secret, Instr.tkenc netid pin secret ∈ is → secret.length = 32) →
    s.fcause = 0x00#8 → s.inbox = is.map (fun i => .frame (encode i)) →
      ∃ (t : State) (rs : List Response), Sys2Proof.core.run is.length s = .next t ∧ t.GoodEnd ∧
        t.responses = s.responses ++ rs ∧
        List.Forall₂ (fun i r => ∃ u, exec i State.reset = .next u ∧ u.responses = [r]) is rs

/-! ## All commands -/

/-- R64: every command an Idle block executes is answered by exactly one well-formed response. -/
def Obligations.EveryCommandAnswersOnce : Prop :=
  ∀ (i : Instr) (s : State), i.wellFormed = true → s.fcause = 0x00#8 →
    ∃ (t : State) (r : Response), exec i s = .next t ∧ t.inbox = s.inbox ∧ t.responses = s.responses ++ [r] ∧
      r.WellFormed ∧ r.toFrame = r.status :: (u16Bytes r.rlen ++ r.rdata)

/-- R46: the frame of every command, and that repeating it gives the same response. -/
def Obligations.CommandFrame : Prop :=
  ∀ (i : Instr) (s t : State), exec i s = .next t →
    t.inbox = s.inbox ∧ ∃ r : Response, t.responses = s.responses ++ [r] ∧
      (t.fcause = s.fcause ∨
        ∃ netid pin secret, i = .tkenc netid pin secret ∧ secret.length ≠ 32 ∧ t.fcause = 0x80#8 ∧ r = ⟨0x80#8, 0#16, []⟩) ∧
      (t.fcause = 0x00#8 → ∃ u, exec i t = .next u ∧ u.responses = t.responses ++ [r] ∧ u.fcause = t.fcause)

/-- R199: `TKENC` faults on every secret whose length is not 32, whatever the PIN, and no other command faults. -/
def Obligations.KeyLengthFault : Prop :=
  (∀ (netid : U16) (pin secret : Bytes) (s : State), s.fcause = 0x00#8 → secret.length ≠ 32 →
    exec (.tkenc netid pin secret) s =
      .next { fcause := 0x80#8, inbox := s.inbox, responses := s.responses ++ [⟨0x80#8, 0#16, []⟩] }) ∧
  (∀ (i : Instr) (s t : State), exec i s = .next t →
    (∀ netid pin secret, i = .tkenc netid pin secret → secret.length = 32) → t.fcause = 0x00#8)

/-- What an Idle block answers to a frame, and whether it faults, depends on the frame alone (the spec derives it, in
R27). -/
def Obligations.ResponseDependsOnFrameOnly : Prop :=
  ∀ (f : Bytes) (s₁ s₂ t₁ : State) (rest₁ rest₂ : List HostEvent), s₁.fcause = 0x00#8 → s₂.fcause = 0x00#8 →
    s₁.inbox = .frame f :: rest₁ → s₂.inbox = .frame f :: rest₂ → step s₁ = .next t₁ →
      ∃ (t₂ : State) (r : Response), step s₂ = .next t₂ ∧ t₁.responses = s₁.responses ++ [r] ∧
        t₂.responses = s₂.responses ++ [r] ∧ t₂.fcause = t₁.fcause

/-- A command answers no status that its row of R260 (derived by the spec) does not mark possible. -/
def Obligations.StatusesOfEachCommand : Prop :=
  ∀ (i : Instr) (s t : State), exec i s = .next t →
    ∃ r : Response, t.responses = s.responses ++ [r] ∧ r.status ∈ possibleStatuses i

/-- R45, R65: the length of every `OK` result. -/
def Obligations.ResultLengths : Prop :=
  ∀ (i : Instr) (s t : State) (r : Response), i.wellFormed = true → exec i s = .next t →
    t.responses = s.responses ++ [r] → r.status = 0x00#8 → resultLengthOk i r.rdata.length

/-! ## Base24 -/

/-- R100, R101: the response of `B24ENC`; the expansion is the library's, the value of the buffer big-endian. -/
def Obligations.B24encResult : Prop :=
  ∀ (data : Bytes) (s : State), s.fcause = 0x00#8 →
    (data.length ≤ 64 → exec (.b24enc data) s = .next (s.respond 0x00#8
      ((List.replicate (data.takeWhile (· == 0#8)).length 0 ++
        (Nat.digits 24 (Nat.ofDigits 256 (data.map BitVec.toNat).reverse)).reverse).map (symOf config.params.alphabet)))) ∧
    (64 < data.length → exec (.b24enc data) s = .next (s.respond 0x06#8 []))

/-- R102, R104: the response of `B24DEC`, for every string: over-long, with an absent symbol, or the string of a digit
list. -/
def Obligations.B24decResult : Prop :=
  ∀ s : State, s.fcause = 0x00#8 →
    (∀ str : Syms, 112 < str.length → exec (.b24dec str) s = .next (s.respond 0x06#8 [])) ∧
    (∀ str : Syms, str.length ≤ 112 → (∃ c ∈ str, c ∉ config.params.alphabet.codes) →
      exec (.b24dec str) s = .next (s.respond 0x01#8 [])) ∧
    (∀ ds : List Nat, ds.length ≤ 112 → (∀ d ∈ ds, d < 24) →
      let r : Bytes := List.replicate (ds.takeWhile (· == 0)).length 0#8 ++
        (Nat.digits 256 (Nat.ofDigits 24 ds.reverse)).reverse.map (BitVec.ofNat 8)
      exec (.b24dec (ds.map (symOf config.params.alphabet))) s =
        .next (if r.length ≤ 64 then s.respond 0x00#8 r else s.respond 0x06#8 []))

/-- R102, R105: the response of `B24DECL`; the natural length is compared, never padded or cut. -/
def Obligations.B24declResult : Prop :=
  ∀ (explen : U16) (s : State), s.fcause = 0x00#8 →
    (∀ str : Syms, 112 < str.length → exec (.b24decl explen str) s = .next (s.respond 0x06#8 [])) ∧
    (∀ str : Syms, str.length ≤ 112 → (∃ c ∈ str, c ∉ config.params.alphabet.codes) →
      exec (.b24decl explen str) s = .next (s.respond 0x01#8 [])) ∧
    (∀ ds : List Nat, ds.length ≤ 112 → (∀ d ∈ ds, d < 24) →
      let r : Bytes := List.replicate (ds.takeWhile (· == 0)).length 0#8 ++
        (Nat.digits 256 (Nat.ofDigits 24 ds.reverse)).reverse.map (BitVec.ofNat 8)
      exec (.b24decl explen (ds.map (symOf config.params.alphabet))) s =
        .next (if r.length ≠ explen.toNat then s.respond 0x02#8 []
          else if r.length ≤ 64 then s.respond 0x00#8 r else s.respond 0x06#8 []))

/-- R108: every buffer of at most `MAXBYTES` bytes comes back from `B24ENC` and `B24DECL`, and every buffer at all from
the two functions. -/
def Obligations.Base24RoundTrip : Prop :=
  (∀ (data : Bytes) (s s' : State), s.fcause = 0x00#8 → s'.fcause = 0x00#8 → data.length ≤ 64 →
    ∃ str : Syms, exec (.b24enc data) s = .next (s.respond 0x00#8 str) ∧
      exec (.b24decl (BitVec.ofNat 16 data.length) str) s' = .next (s'.respond 0x00#8 data)) ∧
  (∀ (a : Alphabet) (data : Bytes), b24decode a (b24encode a data) (some data.length) = .ok data)

/-- R107, the other direction: a string that decodes is the encoding of its decoding, and is not shorter. -/
def Obligations.Base24DecodeThenEncode : Prop :=
  (∀ (a : Alphabet) (str : Syms) (data : Bytes), b24decode a str none = .ok data →
    b24encode a data = str ∧ data.length ≤ str.length) ∧
  (∀ (str : Syms) (data : Bytes) (s s' : State), s.fcause = 0x00#8 → s'.fcause = 0x00#8 →
    exec (.b24dec str) s = .next (s.respond 0x00#8 data) → exec (.b24enc data) s' = .next (s'.respond 0x00#8 str))

/-- R109: the block emits no dash, and a dash that reaches a decoder is an absent symbol. -/
def Obligations.DashIsNeverASymbol : Prop :=
  (∀ (i : Instr) (s t : State) (r : Response), ((∃ data, i = .b24enc data) ∨ ∃ netid pin secret, i = .tkenc netid pin secret) →
    exec i s = .next t → t.responses = s.responses ++ [r] → 0x2D#8 ∉ r.rdata) ∧
  (∀ (str : Syms) (pin : Bytes) (explen netid : U16) (count index : Byte) (s : State), s.fcause = 0x00#8 →
    str.length ≤ 112 → pin.length ≤ 255 → 0x2D#8 ∈ str →
      exec (.b24dec str) s = .next (s.respond 0x01#8 []) ∧
      exec (.b24decl explen str) s = .next (s.respond 0x01#8 []) ∧
      exec (.tkdec netid pin str) s = .next (s.respond 0x01#8 []) ∧
      exec (.tkdecsh netid count index pin str) s = .next (s.respond 0x01#8 []))

/-! ## Nibble shift -/

/-- R120, R121, R126: the response of `NSMUL`, byte by byte and as a number. -/
def Obligations.NsmulResult : Prop :=
  ∀ (data : Bytes) (s : State), s.fcause = 0x00#8 →
    (64 < data.length → exec (.nsmul data) s = .next (s.respond 0x06#8 [])) ∧
    (data.length ≤ 64 → 0x10 ≤ (data.getD 0 0#8).toNat → exec (.nsmul data) s = .next (s.respond 0x03#8 [])) ∧
    (data.length ≤ 64 → (data.getD 0 0#8).toNat < 0x10 →
      ∃ out : Bytes, exec (.nsmul data) s = .next (s.respond 0x00#8 out) ∧ out.length = data.length ∧
        be out = 16 * be data ∧
        ∀ i < data.length, out.getD i 0#8 = (data.getD i 0#8 &&& 0x0F#8) <<< 4 ||| data.getD (i + 1) 0#8 >>> 4)

/-- R122, R123: the response of `NSDIV`, byte by byte (`b[-1]` read as 0) and as a number. -/
def Obligations.NsdivResult : Prop :=
  ∀ (data : Bytes) (s : State), s.fcause = 0x00#8 →
    (64 < data.length → exec (.nsdiv data) s = .next (s.respond 0x06#8 [])) ∧
    (data.length ≤ 64 →
      ∃ out : Bytes, exec (.nsdiv data) s = .next (s.respond 0x00#8 out) ∧ out.length = data.length ∧
        be out = be data / 16 ∧
        ∀ i < data.length, out.getD i 0#8 = ((0#8 :: data).getD i 0#8 &&& 0x0F#8) <<< 4 ||| data.getD i 0#8 >>> 4)

/-- R124: (a) dividing then multiplying clears the last nibble, (b) multiplying then dividing gives the buffer back,
(c) when multiplying fails, (d) the length is kept. -/
def Obligations.ShiftLaws : Prop :=
  (∀ (b : Bytes) (x : Byte), shiftLeft4 (shiftRight4 (b ++ [x])) = .ok (b ++ [x &&& 0xF0#8])) ∧
  (∀ b r : Bytes, shiftLeft4 b = .ok r → shiftRight4 r = b ∧ r.length = b.length) ∧
  (∀ b : Bytes, shiftLeft4 b = .error .overflow ↔ b ≠ [] ∧ 0x10 ≤ (b.getD 0 0#8).toNat) ∧
  (∀ b : Bytes, (shiftRight4 b).length = b.length) ∧
  shiftLeft4 [] = .ok [] ∧ shiftRight4 [] = []

/-! ## Prefix -/

/-- R140, R142: the word of `PFXPACK` is its three fields side by side, the count less one modulo 256. -/
def Obligations.PfxpackResult : Prop :=
  ∀ (netid : U16) (count index : Byte) (s : State), s.fcause = 0x00#8 →
    exec (.pfxpack netid count index) s = .next (s.respond 0x00#8
      (u16Bytes (netid.extractLsb' 0 10 ++ (count - 1#8).extractLsb' 0 3 ++ index.extractLsb' 0 3 : BitVec 16)))

/-- R143, R144: `PFXVFY` compares all 16 bits with the packed word. -/
def Obligations.PfxvfyResult : Prop :=
  ∀ (actual netid : U16) (count index : Byte) (s : State), s.fcause = 0x00#8 →
    exec (.pfxvfy actual netid count index) s = .next
      (if actual = (netid.extractLsb' 0 10 ++ (count - 1#8).extractLsb' 0 3 ++ index.extractLsb' 0 3 : BitVec 16)
        then s.respond 0x00#8 [] else s.respond 0x04#8 [])

/-- R145: `PFXUNPK` gives the fields of every word (its law of inversion is in `PackLaws`). -/
def Obligations.PfxunpkResult : Prop :=
  ∀ (word : U16) (s : State), s.fcause = 0x00#8 →
    exec (.pfxunpk word) s = .next (s.respond 0x00#8
      (u16Bytes ((word.extractLsb' 6 10).setWidth 16) ++
        [(word.extractLsb' 3 3).setWidth 8 + 1#8, (word.extractLsb' 0 3).setWidth 8]))

/-- R141, R145: packing is injective inside the invariant of R147, and packing the unpacked fields of a word gives the
word. -/
def Obligations.PackLaws : Prop :=
  (∀ n c x n' c' x' : Nat, n < 1024 → 1 ≤ c → c ≤ 8 → x ≤ 7 → n' < 1024 → 1 ≤ c' → c' ≤ 8 → x' ≤ 7 →
    pack n c x = pack n' c' x' → n = n' ∧ c = c' ∧ x = x') ∧
  (∀ (w netid : U16) (count index : Byte), unpackFields w = u16Bytes netid ++ [count, index] →
    pack netid.toNat count.toNat index.toNat = w)

/-! ## Checksum -/

/-- R160 to R162: the response of `CKSUM`. -/
def Obligations.CksumResult : Prop :=
  ∀ (pfx : U16) (secret : Bytes) (s : State), s.fcause = 0x00#8 → secret.length = 32 →
    let d := config.params.sha256 (config.params.sha256 (u16Bytes pfx ++ secret)).toList
    exec (.cksum pfx secret) s = .next (s.respond 0x00#8 [d[0], d[1], d[2] &&& 0xF0#8])

/-- R163, R164: the response of `CKVFY`; an embedded checksum whose last nibble is not zero never validates. -/
def Obligations.CkvfyResult : Prop :=
  ∀ (pfx : U16) (secret embedded : Bytes) (s : State), s.fcause = 0x00#8 → secret.length = 32 → embedded.length = 3 →
    let d := config.params.sha256 (config.params.sha256 (u16Bytes pfx ++ secret)).toList
    exec (.ckvfy pfx secret embedded) s = .next
      (if embedded = [d[0], d[1], d[2] &&& 0xF0#8] then s.respond 0x00#8 [] else s.respond 0x05#8 []) ∧
    (embedded.getD 2 0#8 &&& 0x0F#8 ≠ 0#8 → exec (.ckvfy pfx secret embedded) s = .next (s.respond 0x05#8 []))

/-! ## Transport -/

/-- R184, R185, R191 to R193: the response of `TKENC`, step by step. -/
def Obligations.TkencResult : Prop :=
  ∀ (netid : U16) (pin secret : Bytes) (s : State), s.fcause = 0x00#8 →
    (secret.length ≠ 32 → exec (.tkenc netid pin secret) s =
      .next { fcause := 0x80#8, inbox := s.inbox, responses := s.responses ++ [⟨0x80#8, 0#16, []⟩] }) ∧
    (secret.length = 32 → 255 < pin.length → exec (.tkenc netid pin secret) s = .next (s.respond 0x06#8 [])) ∧
    (secret.length = 32 → pin.length ≤ 255 →
      let p := config.params
      let pfx := pack netid.toNat 1 0
      let checksum := computeChecksum p pfx secret
      let cv := be checksum / 16
      let salt := bytesN 5 (cv + cv * 2 ^ 20)
      let digest := (p.sha512 (p.scrypt pin salt 8192 8 1 64).toList).toList
      let enc₁ := (p.cipher.enc (toVec 32 (digest.take 32)) (toVec 16 (secret.take 16))).toList
      let enc₂ := (p.cipher.enc (toVec 32 (digest.drop 32)) (toVec 16 (secret.drop 16))).toList
      let payload := u16Bytes pfx ++ enc₁ ++ enc₂ ++ checksum
      let str := b24encode p.alphabet (bytesN 37 (be payload / 16))
      exec (.tkenc netid pin secret) s = .next (s.respond 0x00#8 str) ∧ str.length ≤ 64)

/-- R186, R187, R194: the response of `TKDEC` on every string, the first failing test in pipeline order. -/
def Obligations.TkdecResult : Prop :=
  ∀ (netid : U16) (pin : Bytes) (s : State), s.fcause = 0x00#8 →
    (∀ str : Syms, 255 < pin.length ∨ 112 < str.length →
      exec (.tkdec netid pin str) s = .next (s.respond 0x06#8 [])) ∧
    (∀ str : Syms, pin.length ≤ 255 → str.length ≤ 112 → (∃ c ∈ str, c ∉ config.params.alphabet.codes) →
      exec (.tkdec netid pin str) s = .next (s.respond 0x01#8 [])) ∧
    (∀ ds : List Nat, pin.length ≤ 255 → ds.length ≤ 112 → (∀ d ∈ ds, d < 24) →
      let p := config.params
      let b : Bytes := List.replicate (ds.takeWhile (· == 0)).length 0#8 ++
        (Nat.digits 256 (Nat.ofDigits 24 ds.reverse)).reverse.map (BitVec.ofNat 8)
      let payload := bytesN 37 (16 * be b)
      let pfx : U16 := BitVec.ofNat 16 (be (payload.take 2))
      let embedded := payload.drop 34
      let keys := deriveKeys p pin embedded
      let secret := (p.cipher.dec keys.1 (toVec 16 (slice payload 2 18))).toList ++
        (p.cipher.dec keys.2 (toVec 16 (slice payload 18 34))).toList
      exec (.tkdec netid pin (ds.map (symOf p.alphabet))) s = .next
        (if b.length ≠ 37 then s.respond 0x02#8 []
         else if 0x10 ≤ (b.getD 0 0#8).toNat then s.respond 0x03#8 []
         else if pfx ≠ pack netid.toNat 1 0 then s.respond 0x04#8 []
         else if computeChecksum p pfx secret ≠ embedded then s.respond 0x05#8 []
         else s.respond 0x00#8 secret))

/-- R197: decrypting what was encrypted under the same PIN and network gives the secret, for the functions with any
collaborators and for the two commands. -/
def Obligations.TransportRoundTrip : Prop :=
  (∀ (p : OpenParams) (secret pin : Bytes) (netid : Nat), secret.length = 32 →
    decryptSingle p (encryptSingle p secret pin netid) pin netid = .ok secret) ∧
  (∀ (netid : U16) (pin secret : Bytes) (s s' : State), s.fcause = 0x00#8 → s'.fcause = 0x00#8 → secret.length = 32 →
    pin.length ≤ 255 → ∃ str : Syms, exec (.tkenc netid pin secret) s = .next (s.respond 0x00#8 str) ∧
      exec (.tkdec netid pin str) s' = .next (s'.respond 0x00#8 secret))

/-- R198, network isolation: under an identifier that differs modulo 1024 the answer is `PrefixMismatch`, whatever the
PIN. -/
def Obligations.NetworkIsolation : Prop :=
  ∀ (netid netid' : U16) (pin pin' secret : Bytes) (s s' : State), s.fcause = 0x00#8 → s'.fcause = 0x00#8 →
    secret.length = 32 → pin.length ≤ 255 → pin'.length ≤ 255 → netid.toNat % 1024 ≠ netid'.toNat % 1024 →
      ∃ str : Syms, exec (.tkenc netid pin secret) s = .next (s.respond 0x00#8 str) ∧
        exec (.tkdec netid' pin' str) s' = .next (s'.respond 0x04#8 [])

/-- R188, R189, R195 (the spec's inferred reading of the share path, notes/assumptions/6.md): the response of `TKDECSH`
on every string, in the closed form of what the blob holds. -/
def Obligations.TkdecshResult : Prop :=
  ∀ (netid : U16) (count index : Byte) (pin : Bytes) (s : State), s.fcause = 0x00#8 →
    (∀ str : Syms, 255 < pin.length ∨ 112 < str.length →
      exec (.tkdecsh netid count index pin str) s = .next (s.respond 0x06#8 [])) ∧
    (∀ str : Syms, pin.length ≤ 255 → str.length ≤ 112 → (∃ c ∈ str, c ∉ config.params.alphabet.codes) →
      exec (.tkdecsh netid count index pin str) s = .next (s.respond 0x01#8 [])) ∧
    (∀ ds : List Nat, pin.length ≤ 255 → ds.length ≤ 112 → (∀ d ∈ ds, d < 24) →
      let p := config.params
      let b : Bytes := List.replicate (ds.takeWhile (· == 0)).length 0#8 ++
        (Nat.digits 256 (Nat.ofDigits 24 ds.reverse)).reverse.map (BitVec.ofNat 8)
      let payload := slice b 1 37 ++ [b.getD 37 0#8 &&& 0xF0#8]
      let pfx : U16 := BitVec.ofNat 16 (be (payload.take 2))
      let embedded := payload.drop 34
      let keys := deriveKeys p pin embedded
      let secret := (p.cipher.dec keys.1 (toVec 16 (slice payload 2 18))).toList ++
        (p.cipher.dec keys.2 (toVec 16 (slice payload 18 34))).toList
      exec (.tkdecsh netid count index pin (ds.map (symOf p.alphabet))) s = .next
        (if b.length ≠ 40 then s.respond 0x02#8 []
         else if b.getD 0 0#8 ≠ 0#8 then s.respond 0x03#8 []
         else if pfx ≠ pack netid.toNat count.toNat index.toNat then s.respond 0x04#8 []
         else if computeChecksum p pfx secret ≠ embedded then s.respond 0x05#8 []
         else s.respond 0x00#8 secret))

/-- R189 (same reading): a blob made of a zero byte, the payload of a secret under the share's prefix, any low nibble
after the checksum and any two bytes decrypts to the secret. -/
def Obligations.TkdecshOpensShare : Prop :=
  ∀ (netid : U16) (count index low x y : Byte) (pin secret : Bytes) (s : State), s.fcause = 0x00#8 →
    secret.length = 32 → pin.length ≤ 255 →
      let payload := payloadOf config.params (pack netid.toNat count.toNat index.toNat) pin secret
      let blob := 0#8 :: (payload.take 36 ++ [payload.getD 36 0#8 ||| (low &&& 0x0F#8), x, y])
      exec (.tkdecsh netid count index pin (b24encode config.params.alphabet blob)) s =
        .next (s.respond 0x00#8 secret)

/-! ## Share combiner -/

/-- R220: the combination is the exclusive-or at every index, for every number of shares, and one share is returned
itself; `SHXOR` answers it. -/
def Obligations.ShxorResult : Prop :=
  (∀ shares : List Bytes, 1 ≤ shares.length → (∀ x ∈ shares, x.length = 32) →
    (combineShares shares).length = 32 ∧
      (∀ i < 32, (combineShares shares).getD i 0#8 = (shares.map (fun x => x.getD i 0#8)).foldr (· ^^^ ·) 0#8) ∧
      ∀ a, shares = [a] → combineShares shares = a) ∧
  (∀ (shares : List Bytes) (s : State), s.fcause = 0x00#8 → 1 ≤ shares.length → shares.length ≤ 8 →
    (∀ x ∈ shares, x.length = 32) → exec (.shxor shares) s = .next (s.respond 0x00#8 (combineShares shares)))

/-- R222: the order of the shares does not matter, shares combine in stages, a share cancels itself and zeros change
nothing. -/
def Obligations.ShxorLaws : Prop :=
  (∀ (shares shares' : List Bytes) (s : State), s.fcause = 0x00#8 → 1 ≤ shares.length → shares.length ≤ 8 →
    (∀ x ∈ shares, x.length = 32) → shares.Perm shares' →
      ∃ out : Bytes, exec (.shxor shares) s = .next (s.respond 0x00#8 out) ∧
        exec (.shxor shares') s = .next (s.respond 0x00#8 out)) ∧
  (∀ (first more : List Bytes) (s s' : State), s.fcause = 0x00#8 → s'.fcause = 0x00#8 → 1 ≤ first.length →
    first.length + more.length ≤ 8 → (∀ x ∈ first ++ more, x.length = 32) →
      ∃ part out : Bytes, exec (.shxor first) s = .next (s.respond 0x00#8 part) ∧
        exec (.shxor (part :: more)) s' = .next (s'.respond 0x00#8 out) ∧
        exec (.shxor (first ++ more)) s' = .next (s'.respond 0x00#8 out)) ∧
  (∀ (a : Bytes) (s : State), s.fcause = 0x00#8 → a.length = 32 →
    exec (.shxor [a, a]) s = .next (s.respond 0x00#8 (List.replicate 32 0#8)) ∧
    exec (.shxor [a, List.replicate 32 0#8]) s = .next (s.respond 0x00#8 a))

/-! ## Every configuration -/

/-- R29: the configuration is a parameter of the step. The machine is the instance with `config`; every instance decodes
and executes under its own configuration and answers each command once, and a reset does not depend on it. -/
def Obligations.ConfigurationIsAStepParameter : Prop :=
  (∀ s : State, step s = stepWith config s) ∧
  (∀ (i : Instr) (s : State), exec i s = execWith config i s) ∧
  ∀ c : Config,
    (∀ (s : State) (f : Bytes) (rest : List HostEvent) (i : Instr), s.fcause = 0x00#8 → s.inbox = .frame f :: rest →
      decodeWith c f = .ok i → stepWith c s = execWith c i { s with inbox := rest }) ∧
    (∀ (s : State) (rest : List HostEvent), s.inbox = .reset :: rest →
      stepWith c s = .next { fcause := 0x00#8, inbox := rest, responses := s.responses }) ∧
    ∀ (i : Instr) (s : State), s.fcause = 0x00#8 →
      ∃ (t : State) (r : Response), execWith c i s = .next t ∧ t.inbox = s.inbox ∧ t.responses = s.responses ++ [r]

/-- R69 and R249 under every configuration: an operand over its capacity, and a result over its capacity, is answered
`ERR_CAPACITY`; with all three capacities unbounded no command answers it. -/
def Obligations.CapacityOfEveryConfig : Prop :=
  ∀ (c : Config) (s : State), s.fcause = 0x00#8 →
    (∀ (m : Nat) (data : Bytes), c.caps.maxBytes = some m → m < data.length →
      execWith c (.b24enc data) s = .next (s.respond 0x06#8 []) ∧
      execWith c (.nsmul data) s = .next (s.respond 0x06#8 []) ∧
      execWith c (.nsdiv data) s = .next (s.respond 0x06#8 [])) ∧
    (∀ (m : Nat) (str : Syms) (pin : Bytes) (explen netid : U16) (count index : Byte), c.caps.maxSyms = some m →
      m < str.length →
      execWith c (.b24dec str) s = .next (s.respond 0x06#8 []) ∧
      execWith c (.b24decl explen str) s = .next (s.respond 0x06#8 []) ∧
      execWith c (.tkdec netid pin str) s = .next (s.respond 0x06#8 []) ∧
      execWith c (.tkdecsh netid count index pin str) s = .next (s.respond 0x06#8 [])) ∧
    (∀ (m : Nat) (str : Syms) (pin secret : Bytes) (netid : U16) (count index : Byte), c.caps.maxPin = some m →
      m < pin.length →
      (secret.length = 32 → execWith c (.tkenc netid pin secret) s = .next (s.respond 0x06#8 [])) ∧
      execWith c (.tkdec netid pin str) s = .next (s.respond 0x06#8 []) ∧
      execWith c (.tkdecsh netid count index pin str) s = .next (s.respond 0x06#8 [])) ∧
    (∀ (m : Nat) (data : Bytes), c.caps.maxSyms = some m → m < (b24encode c.params.alphabet data).length →
      execWith c (.b24enc data) s = .next (s.respond 0x06#8 [])) ∧
    (∀ (m : Nat) (str : Syms) (explen : U16) (r : Bytes), c.caps.maxBytes = some m → m < r.length →
      (b24decode c.params.alphabet str none = .ok r → execWith c (.b24dec str) s = .next (s.respond 0x06#8 [])) ∧
      (b24decode c.params.alphabet str (some explen.toNat) = .ok r →
        execWith c (.b24decl explen str) s = .next (s.respond 0x06#8 []))) ∧
    (c.caps.maxBytes = none → c.caps.maxSyms = none → c.caps.maxPin = none →
      ∀ (i : Instr) (t : State) (r : Response), execWith c i s = .next t → t.responses = s.responses ++ [r] →
        r.status ≠ 0x06#8)

/-- R197 in commands, under every configuration with `plen <= MAXPIN` and `MAXSYMS >= 64`. -/
def Obligations.TransportRoundTripEveryConfig : Prop :=
  ∀ (c : Config) (netid : U16) (pin secret : Bytes) (s s' : State), s.fcause = 0x00#8 → s'.fcause = 0x00#8 →
    secret.length = 32 → (∀ m, c.caps.maxPin = some m → pin.length ≤ m) → (∀ m, c.caps.maxSyms = some m → 64 ≤ m) →
      ∃ str : Syms, execWith c (.tkenc netid pin secret) s = .next (s.respond 0x00#8 str) ∧
        execWith c (.tkdec netid pin str) s' = .next (s'.respond 0x00#8 secret)
end

