-- ==== Sys2Proof/Laws/Bytes.lean ====
section
/-! SUPPORT. Laws of the byte-order primitives and of digit expansions (spec/00_scope.md R12, spec/40_base24.md
R103). -/

namespace Sys2Proof.Machine

@[simp] theorem be_nil : be [] = 0 := rfl

/-- R12: `be(b ‖ [x]) = 256 * be(b) + x`. -/
theorem be_append_singleton (b : Bytes) (x : Byte) : be (b ++ [x]) = 256 * be b + x.toNat := by
  simp [be]

theorem be_append (a b : Bytes) : be (a ++ b) = be a * 256 ^ b.length + be b := by
  induction b using List.reverseRecOn with
  | nil => simp
  | append_singleton b x ih =>
    rw [← List.append_assoc, be_append_singleton, be_append_singleton, ih]
    simp only [List.length_append, List.length_singleton, pow_succ]
    ring

theorem be_singleton (x : Byte) : be [x] = x.toNat := by simp [be]

theorem be_cons (x : Byte) (b : Bytes) : be (x :: b) = x.toNat * 256 ^ b.length + be b := by
  rw [← List.singleton_append, be_append, be_singleton]

theorem be_lt (b : Bytes) : be b < 256 ^ b.length := by
  induction b using List.reverseRecOn with
  | nil => simp
  | append_singleton b x ih =>
    rw [be_append_singleton]
    simp only [List.length_append, List.length_singleton, pow_succ]
    have := x.isLt
    omega

@[simp] theorem length_bytesN (n v : Nat) : (bytesN n v).length = n := by
  induction n generalizing v with
  | zero => rfl
  | succ n ih => simp [bytesN, ih]

theorem be_bytesN_mod (n v : Nat) : be (bytesN n v) = v % 256 ^ n := by
  induction n generalizing v with
  | zero => simp [bytesN, Nat.mod_one]
  | succ n ih =>
    rw [bytesN, be_append_singleton, ih, BitVec.toNat_ofNat, show 256 ^ (n + 1) = 256 * 256 ^ n by ring, Nat.mod_mul]
    omega

/-- `bytes_N(v)` has value `v` where R12 defines it. -/
theorem be_bytesN {n v : Nat} (h : v < 256 ^ n) : be (bytesN n v) = v := by
  rw [be_bytesN_mod, Nat.mod_eq_of_lt h]

/-- A buffer is `bytes_N` of its value. -/
theorem bytesN_be (b : Bytes) : bytesN b.length (be b) = b := by
  induction b using List.reverseRecOn with
  | nil => rfl
  | append_singleton b x ih =>
    have hx := x.isLt
    rw [List.length_append, List.length_singleton, bytesN, be_append_singleton,
      show (256 * be b + x.toNat) / 256 = be b by omega, ih]
    congr 2
    apply BitVec.eq_of_toNat_eq
    rw [BitVec.toNat_ofNat]
    omega

/-- Two buffers of one length with one value are equal. -/
theorem be_injective {a b : Bytes} (hl : a.length = b.length) (hv : be a = be b) : a = b := by
  rw [← bytesN_be a, ← bytesN_be b, hl, hv]

theorem digitsAux_eq {base : Nat} (hb : 1 < base) (fuel v : Nat) (h : v ≤ fuel) :
    digitsAux base fuel v = (Nat.digits base v).reverse := by
  induction fuel generalizing v with
  | zero =>
    obtain rfl : v = 0 := by omega
    simp [digitsAux]
  | succ fuel ih =>
    rw [digitsAux]
    split
    next h0 => simp [h0]
    next h0 =>
      have : v / base < v := Nat.div_lt_self (by omega) hb
      rw [ih _ (by omega), Nat.digits_def' hb (Nat.pos_of_ne_zero h0)]
      simp

/-- The expansion is the library's, most significant digit first. -/
theorem digitsOf_eq {base : Nat} (hb : 1 < base) (v : Nat) : digitsOf base v = (Nat.digits base v).reverse :=
  digitsAux_eq hb v v le_rfl

theorem ofDigits_eq (base : Nat) (ds : List Nat) : ofDigits base ds = Nat.ofDigits base ds.reverse := by
  induction ds using List.reverseRecOn with
  | nil => rfl
  | append_singleton ds d ih =>
    have : ofDigits base (ds ++ [d]) = base * ofDigits base ds + d := by simp [ofDigits]
    rw [this, ih]
    simp [Nat.ofDigits_cons, add_comm]

/-- The big-endian value as the library's little-endian one. -/
theorem be_eq_ofDigits (b : Bytes) : be b = ofDigits 256 (b.map BitVec.toNat) := by
  simp [be, ofDigits, List.foldl_map]

theorem ofDigits_digitsOf {base : Nat} (hb : 1 < base) (v : Nat) : ofDigits base (digitsOf base v) = v := by
  rw [ofDigits_eq, digitsOf_eq hb, List.reverse_reverse, Nat.ofDigits_digits]

theorem ofDigits_replicate_zero_append (base z : Nat) (ds : List Nat) :
    ofDigits base (List.replicate z 0 ++ ds) = ofDigits base ds := by
  induction z with
  | zero => rfl
  | succ z ih =>
    rw [List.replicate_succ, List.cons_append]
    simpa [ofDigits] using ih

theorem digitsOf_lt {base : Nat} (hb : 1 < base) {v d : Nat} (h : d ∈ digitsOf base v) : d < base := by
  rw [digitsOf_eq hb, List.mem_reverse] at h
  exact Nat.digits_lt_base hb h

/-- The first digit is not zero. -/
theorem digitsOf_head_ne_zero {base : Nat} (hb : 1 < base) (v d : Nat) (h : (digitsOf base v).head? = some d) :
    d ≠ 0 := by
  rw [digitsOf_eq hb, List.head?_reverse] at h
  rintro rfl
  have hne : Nat.digits base v ≠ [] := by rintro he; simp [he] at h
  have hv : v ≠ 0 := by rintro rfl; simp at hne
  have h2 := Nat.getLast_digit_ne_zero base hv
  rw [List.getLast?_eq_getLast_of_ne_nil hne, Option.some.injEq] at h
  exact h2 h

/-- A digit list in range without a leading zero is the expansion of its value. -/
theorem digitsOf_ofDigits {base : Nat} (hb : 1 < base) (ds : List Nat) (hlt : ∀ d ∈ ds, d < base)
    (hh : ds.head? ≠ some 0) : digitsOf base (ofDigits base ds) = ds := by
  rw [digitsOf_eq hb, ofDigits_eq, Nat.digits_ofDigits base hb, List.reverse_reverse]
  · intro d hd
    exact hlt d (List.mem_reverse.1 hd)
  · intro hne h0
    apply hh
    rw [List.getLast_reverse] at h0
    rw [← h0, List.head?_eq_some_head]

theorem length_digitsOf_le {base : Nat} (hb : 1 < base) {v k : Nat} (h : v < base ^ k) :
    (digitsOf base v).length ≤ k := by
  rw [digitsOf_eq hb, List.length_reverse]
  exact (Nat.digits_length_le_iff hb v).2 h

end Sys2Proof.Machine
end

