-- ==== Sys2Proof/Laws/Base24.lean ====
section
/-! SUPPORT. The alphabet as a bijection with the digits, the decoder as a function of digits, the two directions of the
codec and the lengths of its results (spec/40_base24.md, spec/00_scope.md R9). -/

namespace Sys2Proof.Machine

/-! ### The alphabet -/

theorem symIndex_eq_some_iff {a : Alphabet} {c : Sym} {d : Nat} :
    symIndex a c = some d ↔ d < 24 ∧ symOf a d = c := by
  have hl := a.length_codes
  unfold symIndex symOf
  rw [List.findIdx?_eq_some_iff_getElem]
  constructor
  · rintro ⟨h, h1, _⟩
    refine ⟨by omega, ?_⟩
    rw [List.getD_eq_getElem _ _ h]
    simpa using h1
  · rintro ⟨h, h1⟩
    have hd : d < a.codes.length := by omega
    rw [List.getD_eq_getElem _ _ hd] at h1
    refine ⟨hd, by simpa using h1, fun j hj => ?_⟩
    have hne : a.codes[j] ≠ a.codes[d] := fun he => by
      have := (List.Nodup.getElem_inj_iff a.nodup_codes).1 he
      omega
    simpa [← h1] using hne

theorem symIndex_symOf {a : Alphabet} {d : Nat} (h : d < 24) : symIndex a (symOf a d) = some d :=
  symIndex_eq_some_iff.2 ⟨h, rfl⟩

theorem symIndex_eq_none_iff {a : Alphabet} {c : Sym} : symIndex a c = none ↔ c ∉ a.codes := by
  simp [symIndex, List.findIdx?_eq_none_iff]
  constructor
  · exact fun h hc => h c hc rfl
  · rintro h x hx rfl
    exact h hx

theorem symOf_mem {a : Alphabet} {d : Nat} (h : d < 24) : symOf a d ∈ a.codes := by
  have hl := a.length_codes
  rw [symOf, List.getD_eq_getElem _ _ (by omega)]
  exact List.getElem_mem _

theorem symOf_inj {a : Alphabet} {d e : Nat} (hd : d < 24) (he : e < 24) : symOf a d = symOf a e ↔ d = e := by
  constructor
  · intro h
    have := symIndex_symOf (a := a) hd
    rw [h, symIndex_symOf he] at this
    exact (Option.some.inj this).symm
  · rintro rfl
    rfl

theorem symIndices_eq_some_iff {a : Alphabet} {s : Syms} {ds : List Nat} :
    symIndices a s = some ds ↔ (∀ d ∈ ds, d < 24) ∧ s = ds.map (symOf a) := by
  induction s generalizing ds with
  | nil =>
    simp only [symIndices, Option.some.injEq]
    constructor
    · rintro rfl
      simp
    · rintro ⟨_, h⟩
      exact (List.map_eq_nil_iff.1 h.symm).symm
  | cons c cs ih =>
    rw [symIndices]
    constructor
    · intro h
      split at h
      next d es hd hes =>
        obtain rfl := Option.some.inj h
        obtain ⟨h1, h2⟩ := symIndex_eq_some_iff.1 hd
        obtain ⟨h3, h4⟩ := ih.1 hes
        refine ⟨by simpa [h1] using h3, by simp [h2, h4]⟩
      next => simp at h
    · rintro ⟨h1, h2⟩
      cases ds with
      | nil => simp at h2
      | cons d ds =>
        rw [List.map_cons, List.cons.injEq] at h2
        simp only [List.mem_cons, forall_eq_or_imp] at h1
        rw [h2.1, symIndex_symOf h1.1, ih.2 ⟨h1.2, h2.2⟩]

theorem symIndices_map {a : Alphabet} {ds : List Nat} (h : ∀ d ∈ ds, d < 24) :
    symIndices a (ds.map (symOf a)) = some ds :=
  symIndices_eq_some_iff.2 ⟨h, rfl⟩

theorem symIndices_eq_none_iff {a : Alphabet} {s : Syms} : symIndices a s = none ↔ ∃ c ∈ s, c ∉ a.codes := by
  induction s with
  | nil => simp [symIndices]
  | cons c cs ih =>
    rw [symIndices]
    split
    next d ds hd hds =>
      have h1 : c ∈ a.codes := by
        by_contra h
        rw [symIndex_eq_none_iff.2 h] at hd
        simp at hd
      rw [hds] at ih
      simpa [h1] using ih
    next h =>
      simp only [true_iff]
      cases hd : symIndex a c with
      | none => exact ⟨c, List.mem_cons_self, symIndex_eq_none_iff.1 hd⟩
      | some d =>
        cases hds : symIndices a cs with
        | none =>
          obtain ⟨x, hx, hx'⟩ := ih.1 hds
          exact ⟨x, List.mem_cons_of_mem _ hx, hx'⟩
        | some ds => exact absurd hds (h d ds hd)

theorem lzs_map {a : Alphabet} {ds : List Nat} (h : ∀ d ∈ ds, d < 24) :
    lzs a (ds.map (symOf a)) = (ds.takeWhile (· == 0)).length := by
  unfold lzs
  induction ds with
  | nil => rfl
  | cons d ds ih =>
    simp only [List.mem_cons, forall_eq_or_imp] at h
    have h0 : (symOf a d == symOf a 0) = (d == 0) := by
      rw [Bool.eq_iff_iff]
      simpa using symOf_inj h.1 (by omega : 0 < 24)
    rw [List.map_cons, List.takeWhile_cons, List.takeWhile_cons, h0]
    cases d == 0 <;> simp [ih h.2]

/-! ### The codec on digits -/

/-- The bytes a digit list decodes to (R102). -/
def decodedBytes (ds : List Nat) : Bytes :=
  List.replicate (ds.takeWhile (· == 0)).length 0#8 ++ minBytes (ofDigits base24 ds)

/-- Everything the decoder does on the string of a digit list. -/
theorem b24decode_map {a : Alphabet} {ds : List Nat} (h : ∀ d ∈ ds, d < 24) (explen : Option Nat) :
    b24decode a (ds.map (symOf a)) explen =
      match explen with
      | none => .ok (decodedBytes ds)
      | some n => if (decodedBytes ds).length = n then .ok (decodedBytes ds) else .error .lengthMismatch := by
  rw [b24decode, symIndices_map h, lzs_map h]
  rfl

theorem b24decode_of_absent {a : Alphabet} {s : Syms} (h : ∃ c ∈ s, c ∉ a.codes) (explen : Option Nat) :
    b24decode a s explen = .error .invalidSymbol := by
  rw [b24decode, symIndices_eq_none_iff.2 h]

/-- A string either has an absent symbol or is the string of a digit list. -/
theorem absent_or_digits (a : Alphabet) (s : Syms) :
    (∃ c ∈ s, c ∉ a.codes) ∨ ∃ ds : List Nat, (∀ d ∈ ds, d < 24) ∧ s = ds.map (symOf a) := by
  cases h : symIndices a s with
  | none => exact .inl (symIndices_eq_none_iff.1 h)
  | some ds => exact .inr ⟨ds, symIndices_eq_some_iff.1 h⟩

theorem minBytes_be_of_head {b : Bytes} (h : b.head? ≠ some 0#8) : minBytes (be b) = b := by
  rw [minBytes, be_eq_ofDigits, digitsOf_ofDigits (by norm_num), List.map_map]
  · exact List.map_id'' (fun x => by simp) b
  · intro d hd
    obtain ⟨x, _, rfl⟩ := List.mem_map.1 hd
    exact x.isLt
  · cases b with
    | nil => simp
    | cons x b =>
      simp only [List.head?_cons, ne_eq, Option.some.injEq, List.map_cons] at h ⊢
      exact fun h' => h (BitVec.eq_of_toNat_eq h')

theorem be_minBytes (v : Nat) : be (minBytes v) = v := by
  have h : (minBytes v).map BitVec.toNat = digitsOf 256 v := by
    rw [minBytes, List.map_map]
    conv_rhs => rw [← List.map_id (digitsOf 256 v)]
    apply List.map_congr_left
    intro d hd
    have := digitsOf_lt (by norm_num) hd
    simp
    omega
  rw [be_eq_ofDigits, h, ofDigits_digitsOf (by norm_num)]

/-- `minbytes(v)` has no leading zero byte (R103). -/
theorem minBytes_head (v : Nat) : (minBytes v).head? ≠ some 0#8 := by
  rw [minBytes, List.head?_map]
  intro h
  obtain ⟨d, hd, h0⟩ := Option.map_eq_some_iff.1 h
  have h1 := digitsOf_head_ne_zero (by norm_num) v d hd
  have h2 := digitsOf_lt (by norm_num) (List.mem_of_mem_head? hd)
  have := congrArg BitVec.toNat h0
  simp at this
  omega

theorem takeWhile_replicate_append {α : Type} [BEq α] [LawfulBEq α] (x : α) (n : Nat) {l : List α}
    (h : l.head? ≠ some x) : (List.replicate n x ++ l).takeWhile (· == x) = List.replicate n x := by
  induction n with
  | zero =>
    cases l with
    | nil => rfl
    | cons y l => simpa using h
  | succ n ih => simp [List.replicate_succ, ih]

/-- A list is its leading copies of `x` and a rest that does not start with `x`. -/
theorem exists_replicate_append {α : Type} [BEq α] [LawfulBEq α] (x : α) (l : List α) :
    ∃ n t, l = List.replicate n x ++ t ∧ t.head? ≠ some x := by
  induction l with
  | nil => exact ⟨0, [], rfl, by simp⟩
  | cons y l ih =>
    by_cases h : y = x
    · obtain ⟨n, t, rfl, ht⟩ := ih
      exact ⟨n + 1, t, by simp [List.replicate_succ, h], ht⟩
    · exact ⟨0, y :: l, rfl, by simpa using h⟩

theorem be_replicate_zero_append (n : Nat) (t : Bytes) : be (List.replicate n 0#8 ++ t) = be t := by
  rw [be_append]
  suffices be (List.replicate n 0#8) = 0 by simp [this]
  induction n with
  | zero => rfl
  | succ n ih => rw [List.replicate_succ, be_cons, ih]; simp

theorem encodeDigits_lt {b : Bytes} : ∀ d ∈ encodeDigits b, d < 24 := by
  intro d hd
  rw [encodeDigits, List.mem_append] at hd
  rcases hd with hd | hd
  · have := List.eq_of_mem_replicate hd
    omega
  · exact digitsOf_lt (by norm_num [base24]) hd

/-- R107: decoding an encoding gives the buffer. -/
theorem decodedBytes_encodeDigits (b : Bytes) : decodedBytes (encodeDigits b) = b := by
  obtain ⟨n, t, rfl, ht⟩ := exists_replicate_append 0#8 b
  have hd := digitsOf_head_ne_zero (base := base24) (by norm_num [base24]) (be t)
  rw [encodeDigits, decodedBytes, lz, takeWhile_replicate_append _ _ ht, be_replicate_zero_append,
    takeWhile_replicate_append, ofDigits_replicate_zero_append, ofDigits_digitsOf (by norm_num [base24]),
    minBytes_be_of_head ht]
  · simp
  · exact fun h => hd 0 h rfl

/-- R107, the other direction: encoding a decoding gives the digits. -/
theorem encodeDigits_decodedBytes {ds : List Nat} (h : ∀ d ∈ ds, d < 24) : encodeDigits (decodedBytes ds) = ds := by
  obtain ⟨n, t, rfl, ht⟩ := exists_replicate_append 0 ds
  rw [encodeDigits, decodedBytes, takeWhile_replicate_append _ _ ht, ofDigits_replicate_zero_append, lz,
    takeWhile_replicate_append _ _ (minBytes_head _), be_replicate_zero_append, be_minBytes,
    digitsOf_ofDigits (base := base24) (by norm_num [base24]) _ (fun d hd => h d (List.mem_append_right _ hd)) ht]
  simp

/-- Decoding an encoding of the expected length, or with no length given, gives the buffer (R107, R108). -/
theorem b24decode_b24encode (a : Alphabet) (b : Bytes) {explen : Option Nat} (h : explen = none ∨ explen = some b.length) :
    b24decode a (b24encode a b) explen = .ok b := by
  rw [b24encode, b24decode_map encodeDigits_lt, decodedBytes_encodeDigits]
  rcases h with rfl | rfl <;> simp

/-! ### Lengths -/

theorem length_decodedBytes_le (ds : List Nat) (h : ∀ d ∈ ds, d < 24) : (decodedBytes ds).length ≤ ds.length := by
  obtain ⟨n, t, rfl, ht⟩ := exists_replicate_append 0 ds
  rw [decodedBytes, takeWhile_replicate_append _ _ ht, ofDigits_replicate_zero_append]
  simp only [List.length_append, List.length_replicate, minBytes, List.length_map, Nat.add_le_add_iff_left]
  apply length_digitsOf_le (by norm_num)
  rw [ofDigits_eq]
  calc Nat.ofDigits base24 t.reverse < 24 ^ t.reverse.length :=
        Nat.ofDigits_lt_base_pow_length (by norm_num [base24]) fun x hx => h x (List.mem_append_right _ (List.mem_reverse.1 hx))
    _ ≤ 256 ^ t.length := by rw [List.length_reverse]; exact Nat.pow_le_pow_left (by norm_num) _

/-- The length of an encoding from bounds on powers: a buffer of `k` bytes below `v`, where `v` and every value with
leading zero bytes have few enough digits. -/
theorem length_b24encode_le {a : Alphabet} {b : Bytes} {m : Nat} (h : be b < 24 ^ (m - lz b)) (hz : lz b ≤ m) :
    (b24encode a b).length ≤ m := by
  rw [b24encode, encodeDigits]
  simp only [List.length_map, List.length_append, List.length_replicate]
  have := length_digitsOf_le (base := base24) (by norm_num [base24]) h
  omega

theorem lz_le_length (b : Bytes) : lz b ≤ b.length := by
  rw [lz]
  exact (List.takeWhile_prefix _).length_le

theorem be_lt_of_lz (b : Bytes) : be b < 256 ^ (b.length - lz b) := by
  obtain ⟨n, t, rfl, ht⟩ := exists_replicate_append 0#8 b
  rw [lz, takeWhile_replicate_append _ _ ht, be_replicate_zero_append]
  simpa using be_lt t

/-- When `k` bytes fit `m` symbols by value, a buffer of at most `k` bytes has an encoding of at most `m` symbols. -/
theorem length_b24encode_le_of_pow {a : Alphabet} {b : Bytes} {k m : Nat} (hk : b.length ≤ k) (hkm : k ≤ m)
    (hp : 256 ^ k ≤ 24 ^ m) : (b24encode a b).length ≤ m := by
  have hz := lz_le_length b
  apply length_b24encode_le _ (by omega)
  apply lt_of_lt_of_le (be_lt_of_lz b)
  apply le_trans (Nat.pow_le_pow_right (by norm_num) (by omega : b.length - lz b ≤ k - lz b))
  apply Nat.le_of_mul_le_mul_right _ (Nat.pow_pos (n := lz b) (by norm_num : 0 < 256))
  calc 256 ^ (k - lz b) * 256 ^ lz b = 256 ^ k := by rw [← pow_add]; congr 1; omega
    _ ≤ 24 ^ m := hp
    _ = 24 ^ (m - lz b) * 24 ^ lz b := by rw [← pow_add]; congr 1; omega
    _ ≤ 24 ^ (m - lz b) * 256 ^ lz b := Nat.mul_le_mul_left _ (Nat.pow_le_pow_left (by norm_num) _)

/-- R9: at most 64 bytes encode to at most 112 symbols. -/
theorem length_b24encode_le_112 {a : Alphabet} {b : Bytes} (h : b.length ≤ 64) : (b24encode a b).length ≤ 112 :=
  length_b24encode_le_of_pow h (by norm_num) (by norm_num)

/-- R45: 37 bytes with a zero top nibble encode to at most 64 symbols. -/
theorem length_b24encode_le_64 {a : Alphabet} {b : Bytes} (h : b.length = 37) (hv : be b < 16 * 256 ^ 36) :
    (b24encode a b).length ≤ 64 := by
  rcases Nat.eq_zero_or_pos (lz b) with h0 | h0
  · exact length_b24encode_le (by rw [h0]; exact lt_of_lt_of_le hv (by norm_num)) (by omega)
  · have hz := lz_le_length b
    apply length_b24encode_le _ (by omega)
    apply lt_of_lt_of_le (be_lt_of_lz b)
    rw [h]
    apply Nat.le_of_mul_le_mul_right _ (Nat.pow_pos (n := lz b - 1) (by norm_num : 0 < 256))
    calc 256 ^ (37 - lz b) * 256 ^ (lz b - 1) = 256 ^ 36 := by rw [← pow_add]; congr 1; omega
      _ ≤ 24 ^ 63 := by norm_num
      _ = 24 ^ (64 - lz b) * 24 ^ (lz b - 1) := by rw [← pow_add]; congr 1; omega
      _ ≤ 24 ^ (64 - lz b) * 256 ^ (lz b - 1) := Nat.mul_le_mul_left _ (Nat.pow_le_pow_left (by norm_num) _)

/-- No encoding holds a code outside the alphabet; in particular no dash (R109). -/
theorem mem_b24encode {a : Alphabet} {b : Bytes} {c : Sym} (h : c ∈ b24encode a b) : c ∈ a.codes := by
  obtain ⟨d, hd, rfl⟩ := List.mem_map.1 h
  exact symOf_mem (encodeDigits_lt d hd)

end Sys2Proof.Machine
end

