-- ==== Sys2Proof/Laws/Decode.lean ====
section
/-! SUPPORT. What each reader of the decoder does, on an encoded field and in general (spec/30_encoding.md R61, R63). -/

namespace Sys2Proof
open Machine

@[simp] theorem length_u16Bytes (w : U16) : (u16Bytes w).length = 2 := rfl

theorem u16Of_toNat (hi lo : Byte) : (u16Of hi lo).toNat = 256 * hi.toNat + lo.toNat := by
  unfold u16Of
  rw [BitVec.toNat_append, ← Nat.shiftLeft_add_eq_or_of_lt lo.isLt, Nat.shiftLeft_eq]
  omega

@[simp] theorem u16Of_u16Bytes (w : U16) : u16Of (w.extractLsb' 8 8) (w.extractLsb' 0 8) = w := by
  have := w.isLt
  apply BitVec.eq_of_toNat_eq
  rw [u16Of_toNat, BitVec.extractLsb'_toNat, BitVec.extractLsb'_toNat, Nat.shiftRight_eq_div_pow]
  omega

@[simp] theorem u16Bytes_u16Of (hi lo : Byte) : u16Bytes (u16Of hi lo) = [hi, lo] := by
  have h := u16Of_toNat hi lo
  have := hi.isLt
  have := lo.isLt
  simp only [u16Bytes, List.cons.injEq, and_true]
  constructor <;> apply BitVec.eq_of_toNat_eq <;> rw [BitVec.extractLsb'_toNat, h, Nat.shiftRight_eq_div_pow] <;> omega

/-- The value of the two bytes of a `u16` (R42). -/
theorem be_u16Bytes (w : U16) : be (u16Bytes w) = w.toNat := by
  have h := u16Of_u16Bytes w
  conv_rhs => rw [← h]
  rw [u16Of_toNat]
  simp [be, u16Bytes]

@[simp] theorem readU8_cons (b : Byte) (f : Bytes) : readU8 (b :: f) = .ok (b, f) := rfl

@[simp] theorem readU16_u16Bytes (w : U16) (f : Bytes) : readU16 (u16Bytes w ++ f) = .ok (w, f) := by
  simp [readU16, u16Bytes]

@[simp] theorem decodeWith_nil (c : Config) : decodeWith c [] = .error .emptyFrame := rfl

@[simp] theorem decodeWith_cons (c : Config) (op : Byte) (body : Bytes) :
    decodeWith c (op :: body) = decodeBody c op body := rfl

theorem readRun_append {b : Bytes} {k : Nat} (h : b.length = k) (f : Bytes) : readRun k (b ++ f) = .ok (b, f) := by
  subst h
  simp [readRun]

theorem readMeasured_measured {b : Bytes} (h : b.length < 65536) (f : Bytes) :
    readMeasured (measured b ++ f) = .ok (b, f) := by
  rw [measured, List.append_assoc, readMeasured, readU16_u16Bytes]
  exact readRun_append (by simp; omega) f

theorem readShares_flatten (ss : List Bytes) (h : ∀ s ∈ ss, s.length = secretLen) (f : Bytes) :
    readShares ss.length (ss.flatten ++ f) = .ok (ss, f) := by
  induction ss with
  | nil => rfl
  | cons s ss ih =>
    rw [List.length_cons, List.flatten_cons, List.append_assoc, readShares,
      readRun_append (h s List.mem_cons_self)]
    simp only [ih fun x hx => h x (List.mem_cons_of_mem _ hx)]

/-- Everything `readU8` accepts. -/
theorem readU8_eq_ok_iff {f : Bytes} {b : Byte} {r : Bytes} : readU8 f = .ok (b, r) ↔ f = b :: r := by
  cases f <;> simp [readU8]

/-- Everything `readU16` accepts. -/
theorem readU16_eq_ok_iff {f : Bytes} {w : U16} {r : Bytes} : readU16 f = .ok (w, r) ↔ f = u16Bytes w ++ r := by
  constructor
  · intro h
    match f, h with
    | [], h => simp [readU16] at h
    | [_], h => simp [readU16] at h
    | hi :: lo :: rest, h =>
      simp only [readU16, Except.ok.injEq, Prod.mk.injEq] at h
      rw [← h.1, ← h.2, u16Bytes_u16Of]
      rfl
  · rintro rfl
    exact readU16_u16Bytes w r

/-- Everything `readRun` accepts. -/
theorem readRun_eq_ok_iff {k : Nat} {f b r : Bytes} : readRun k f = .ok (b, r) ↔ b.length = k ∧ f = b ++ r := by
  constructor
  · intro h
    unfold readRun at h
    split at h
    next hk =>
      simp only [Except.ok.injEq, Prod.mk.injEq] at h
      rw [← h.1, ← h.2]
      simp [hk]
    next => simp at h
  · rintro ⟨h, rfl⟩
    exact readRun_append h r

/-- Everything `readMeasured` accepts. -/
theorem readMeasured_eq_ok_iff {f b r : Bytes} :
    readMeasured f = .ok (b, r) ↔ b.length < 65536 ∧ f = measured b ++ r := by
  constructor
  · intro h
    unfold readMeasured at h
    split at h
    next k rest hk =>
      obtain ⟨hl, rfl⟩ := readRun_eq_ok_iff.1 h
      rw [readU16_eq_ok_iff.1 hk, measured, hl]
      exact ⟨by have := k.isLt; omega, by simp⟩
    next => simp at h
  · rintro ⟨h, rfl⟩
    exact readMeasured_measured h r

/-- Everything `readShares` accepts. -/
theorem readShares_eq_ok_iff {n : Nat} {f r : Bytes} {ss : List Bytes} :
    readShares n f = .ok (ss, r) ↔ ss.length = n ∧ (∀ s ∈ ss, s.length = secretLen) ∧ f = ss.flatten ++ r := by
  constructor
  · intro h
    induction n generalizing f ss with
    | zero =>
      simp only [readShares, Except.ok.injEq, Prod.mk.injEq] at h
      simp [← h.1, h.2]
    | succ n ih =>
      rw [readShares] at h
      split at h
      next => simp at h
      next s rest hs =>
        split at h
        next => simp at h
        next ss' rest' hss =>
          simp only [Except.ok.injEq, Prod.mk.injEq] at h
          obtain ⟨rfl, rfl⟩ := h
          obtain ⟨h1, h2, rfl⟩ := ih hss
          obtain ⟨h3, rfl⟩ := readRun_eq_ok_iff.1 hs
          simpa [h1, h3] using h2
  · rintro ⟨rfl, h, rfl⟩
    exact readShares_flatten ss h r

/-- Everything `endFrame` accepts. -/
theorem endFrame_eq_ok_iff {i j : Instr} {f : Bytes} : endFrame i f = .ok j ↔ f = [] ∧ j = i := by
  cases f <;> simp [endFrame, eq_comm]

@[simp] theorem length_measured (b : Bytes) : (measured b).length = 2 + b.length := by
  simp [measured]

end Sys2Proof
end

