-- ==== Sys2Proof/Laws/NibbleShift.lean ====
section
/-! SUPPORT. The two shifts by bytes (the byte forms of spec/41_nibble_shift.md R120 and R122), their laws (R124), and
the double shift of the share path (spec/44_transport.md R189). -/

namespace Sys2Proof.Machine

/-- A byte made of the low nibble of `x` and the top nibble of `y`. -/
def nibbles (x y : Byte) : Byte := (x &&& 0x0F#8) <<< 4 ||| y >>> 4

theorem nibbles_toNat (x y : Byte) : (nibbles x y).toNat = x.toNat % 16 * 16 + y.toNat / 16 := by
  have h : ∀ x y : Fin 256, (nibbles (BitVec.ofFin x) (BitVec.ofFin y)).toNat = x.val % 16 * 16 + y.val / 16 := by
    unfold nibbles
    decide +kernel
  exact h x.toFin y.toFin

theorem shiftRight_eq_zero_iff (x : Byte) : x >>> 4 = 0#8 ↔ x.toNat < 0x10 := by
  rw [← BitVec.toNat_inj, BitVec.toNat_ushiftRight, Nat.shiftRight_eq_div_pow]
  simp

/-- The byte form of the left shift, `b[n]` read as 0 (R120). -/
def leftBytes (b : Bytes) : Bytes := List.zipWith nibbles b (b.tail ++ [0#8])

/-- The byte form of the right shift with `p` for `b[-1]` (R122). -/
def rightBytes (p : Byte) (b : Bytes) : Bytes := List.zipWith nibbles (p :: b) b

theorem length_leftBytes (b : Bytes) : (leftBytes b).length = b.length := by
  cases b <;> simp [leftBytes]

theorem length_rightBytes (p : Byte) (b : Bytes) : (rightBytes p b).length = b.length := by
  simp [rightBytes]

theorem leftBytes_cons_cons (x y : Byte) (b : Bytes) : leftBytes (x :: y :: b) = nibbles x y :: leftBytes (y :: b) := rfl

theorem rightBytes_cons (p x : Byte) (b : Bytes) : rightBytes p (x :: b) = nibbles p x :: rightBytes x b := rfl

/-- The byte form has 16 times the value, less the nibble that falls off. -/
theorem be_leftBytes (b : Bytes) : be (leftBytes b) + (b.getD 0 0#8).toNat / 16 * 256 ^ b.length = 16 * be b := by
  induction b with
  | nil => rfl
  | cons x b ih =>
    cases b with
    | nil =>
      have : leftBytes [x] = [nibbles x 0#8] := rfl
      rw [this, be_singleton, be_singleton, nibbles_toNat]
      simp
      omega
    | cons y b =>
      rw [leftBytes_cons_cons, be_cons, nibbles_toNat, length_leftBytes, be_cons x]
      simp only [List.getD_cons_zero, List.length_cons] at ih ⊢
      have hx : x.toNat = x.toNat / 16 * 16 + x.toNat % 16 := by omega
      generalize x.toNat % 16 = xl at *
      generalize x.toNat / 16 = xh at *
      rw [hx]
      rw [pow_succ 256 (b.length + 1)]
      linear_combination ih

/-- The byte form has the floor of a sixteenth of the value. -/
theorem be_rightBytes (p : Byte) (b : Bytes) :
    be (rightBytes p b) = (p.toNat % 16 * 256 ^ b.length + be b) / 16 := by
  induction b generalizing p with
  | nil => simp [rightBytes]
  | cons x b ih =>
    rw [rightBytes_cons, be_cons, nibbles_toNat, length_rightBytes, ih, be_cons, List.length_cons]
    have hx : x.toNat = x.toNat / 16 * 16 + x.toNat % 16 := by omega
    generalize x.toNat % 16 = xl at *
    generalize x.toNat / 16 = xh at *
    rw [hx, show p.toNat % 16 * 256 ^ (b.length + 1) + ((xh * 16 + xl) * 256 ^ b.length + be b) =
      xl * 256 ^ b.length + be b + 16 * ((p.toNat % 16 * 16 + xh) * 256 ^ b.length) by ring,
      Nat.add_mul_div_left _ _ (by norm_num)]
    ring

/-- Everything `shiftLeft4` can do (R120, R124 (c), R126). -/
theorem shiftLeft4_eq (b : Bytes) :
    shiftLeft4 b = if (b.getD 0 0#8).toNat < 0x10 then .ok (leftBytes b) else .error .overflow := by
  cases b with
  | nil => rfl
  | cons x b =>
    have hx := shiftRight_eq_zero_iff x
    simp only [shiftLeft4, List.getD_cons_zero]
    by_cases h : x.toNat < 0x10
    · rw [if_neg (by simpa using hx.2 h), if_pos h]
      congr 1
      apply be_injective
      · simp [length_leftBytes]
      · have h1 := be_leftBytes (x :: b)
        have h2 := be_lt (leftBytes (x :: b))
        rw [List.getD_cons_zero, show x.toNat / 16 = 0 by omega, Nat.zero_mul, Nat.add_zero] at h1
        rw [length_leftBytes, h1] at h2
        rw [be_bytesN h2, h1]
    · rw [if_pos (by simpa using fun h' => h (hx.1 h')), if_neg h]

/-- `shiftRight4` by bytes (R122). -/
theorem shiftRight4_eq (b : Bytes) : shiftRight4 b = rightBytes 0#8 b := by
  apply be_injective
  · simp [shiftRight4, length_rightBytes]
  · have h := be_lt b
    rw [be_rightBytes, shiftRight4, be_bytesN (lt_of_le_of_lt (Nat.div_le_self _ _) h)]
    simp

@[simp] theorem length_shiftRight4 (b : Bytes) : (shiftRight4 b).length = b.length := length_bytesN _ _

theorem be_shiftRight4 (b : Bytes) : be (shiftRight4 b) = be b / 16 :=
  be_bytesN (lt_of_le_of_lt (Nat.div_le_self _ _) (be_lt b))

theorem be_leftBytes_of_lt {b : Bytes} (h : (b.getD 0 0#8).toNat < 0x10) : be (leftBytes b) = 16 * be b := by
  have := be_leftBytes b
  rwa [show (b.getD 0 0#8).toNat / 16 = 0 by omega, Nat.zero_mul, Nat.add_zero] at this

theorem bytesN_eq_leftBytes {b : Bytes} (h : (b.getD 0 0#8).toNat < 0x10) :
    bytesN b.length (16 * be b) = leftBytes b := by
  rw [← be_leftBytes_of_lt h]
  conv_lhs => rw [← length_leftBytes b]
  exact bytesN_be _

/-- The top nibble of the first byte of a right shift is zero (R123). -/
theorem shiftRight4_head (b : Bytes) : ((shiftRight4 b).getD 0 0#8).toNat < 0x10 := by
  rw [shiftRight4_eq]
  cases b with
  | nil => simp [rightBytes]
  | cons x b =>
    rw [rightBytes_cons, List.getD_cons_zero, nibbles_toNat]
    have := x.isLt
    simp
    omega

/-- R124 (b). -/
theorem shiftRight4_shiftLeft4 {b r : Bytes} (h : shiftLeft4 b = .ok r) : shiftRight4 r = b := by
  rw [shiftLeft4_eq] at h
  split at h
  next hh =>
    obtain rfl : leftBytes b = r := by simpa using h
    apply be_injective
    · simp [length_leftBytes]
    · rw [be_shiftRight4, be_leftBytes_of_lt hh]
      omega
  next => simp at h

theorem and_f0_toNat (x : Byte) : (x &&& 0xF0#8).toNat = x.toNat / 16 * 16 := by
  have h : ∀ x : Fin 256, (BitVec.ofFin x &&& 0xF0#8).toNat = x.val / 16 * 16 := by decide +kernel
  exact h x.toFin

/-- R124 (a). -/
theorem shiftLeft4_shiftRight4 (b : Bytes) (x : Byte) :
    shiftLeft4 (shiftRight4 (b ++ [x])) = .ok (b ++ [x &&& 0xF0#8]) := by
  rw [shiftLeft4_eq, if_pos (shiftRight4_head _)]
  congr 1
  apply be_injective
  · simp [length_leftBytes]
  · rw [be_leftBytes_of_lt (shiftRight4_head _), be_shiftRight4, be_append_singleton, be_append_singleton, and_f0_toNat]
    omega

/-- R124 (a): nothing is lost when the last nibble is zero. -/
theorem shiftLeft4_shiftRight4_of_low {b : Bytes} (h : be b % 16 = 0) : shiftLeft4 (shiftRight4 b) = .ok b := by
  rw [shiftLeft4_eq, if_pos (shiftRight4_head _)]
  congr 1
  apply be_injective
  · simp [length_leftBytes]
  · rw [be_leftBytes_of_lt (shiftRight4_head _), be_shiftRight4]
    omega

theorem getD_leftBytes {b : Bytes} {i : Nat} (h : i < b.length) :
    (leftBytes b).getD i 0#8 = nibbles (b.getD i 0#8) (b.getD (i + 1) 0#8) := by
  induction b generalizing i with
  | nil => simp at h
  | cons x b ih =>
    cases b with
    | nil =>
      obtain rfl : i = 0 := by simpa using h
      rfl
    | cons y b =>
      rw [leftBytes_cons_cons]
      cases i with
      | zero => rfl
      | succ i => simpa using ih (i := i) (by simpa using h)

theorem getD_rightBytes {p : Byte} {b : Bytes} {i : Nat} (h : i < b.length) :
    (rightBytes p b).getD i 0#8 = nibbles ((p :: b).getD i 0#8) (b.getD i 0#8) := by
  induction b generalizing i p with
  | nil => simp at h
  | cons x b ih =>
    rw [rightBytes_cons]
    cases i with
    | zero => rfl
    | succ i => simpa using ih (p := x) (i := i) (by simpa using h)

end Sys2Proof.Machine
end

