-- ==== Sys2Proof/Laws/State.lean ====
section
/-! SUPPORT. One lemma per field and update of the state, the inversion lemmas of the shared operations, and what one
step can do; later proofs cite these and do not unfold the operations. -/

namespace Sys2Proof.Machine

section Fields
variable (s : State) (st : Byte) (d : Bytes) (c : FaultCause) (r : Reply)

@[simp] theorem mkResponse_status : (mkResponse st d).status = st := rfl
@[simp] theorem mkResponse_rdata : (mkResponse st d).rdata = d := rfl
@[simp] theorem mkResponse_rlen : (mkResponse st d).rlen = BitVec.ofNat 16 d.length := rfl

@[simp] theorem respond_fcause : (s.respond st d).fcause = s.fcause := rfl
@[simp] theorem respond_inbox : (s.respond st d).inbox = s.inbox := rfl
@[simp] theorem respond_responses : (s.respond st d).responses = s.responses ++ [mkResponse st d] := rfl

@[simp] theorem raiseFault_fcause : (s.raiseFault c).fcause = c.code := rfl
@[simp] theorem raiseFault_inbox : (s.raiseFault c).inbox = s.inbox := rfl
@[simp] theorem raiseFault_responses : (s.raiseFault c).responses = s.responses ++ [mkResponse c.code []] := rfl

@[simp] theorem resetEvent_fcause : s.resetEvent.fcause = 0x00#8 := rfl
@[simp] theorem resetEvent_inbox : s.resetEvent.inbox = s.inbox := rfl
@[simp] theorem resetEvent_responses : s.resetEvent.responses = s.responses := rfl

@[simp] theorem deliver_ok : s.deliver (.ok d) = s.respond statusOk d := rfl
@[simp] theorem deliver_err (k : ErrKind) : s.deliver (.err k) = s.respond k.code [] := rfl
@[simp] theorem deliver_fault : s.deliver (.fault c) = s.raiseFault c := rfl

@[simp] theorem deliver_inbox : (s.deliver r).inbox = s.inbox := by cases r <;> rfl
@[simp] theorem deliver_responses : (s.deliver r).responses = s.responses ++ [mkResponse r.status r.rdata] := by
  cases r <;> rfl

@[simp] theorem withFetchWord_fcause (n w : Nat) : (s.withFetchWord n w).fcause = s.fcause := rfl
@[simp] theorem withFetchWord_inbox (n w : Nat) :
    (s.withFetchWord n w).inbox = .frame (tableFrame n w) :: s.inbox := rfl
@[simp] theorem withFetchWord_responses (n w : Nat) : (s.withFetchWord n w).responses = s.responses := rfl

end Fields

/-- A reply changes `FCAUSE` only if it is a fault (R70, R252). -/
theorem deliver_fcause (s : State) (r : Reply) :
    (s.deliver r).fcause = match r with | .fault c => c.code | _ => s.fcause := by
  cases r <;> rfl

theorem faultCode_ne_zero (c : FaultCause) : c.code ≠ 0x00#8 := by cases c <;> decide

theorem errCode_ne_zero (k : ErrKind) : k.code ≠ 0x00#8 := by cases k <;> decide

/-- A reply's status is `OK` exactly for a result (R240). -/
theorem status_eq_zero_iff (r : Reply) : r.status = 0x00#8 ↔ ∃ d, r = .ok d := by
  cases r with
  | ok d => simp [Reply.status, statusOk]
  | err k => simp [Reply.status, errCode_ne_zero]
  | fault c => simp [Reply.status, faultCode_ne_zero]

theorem complete_of_idle {s : State} (h : s.Idle) (r : Reply) : complete r s = .next (s.deliver r) := if_pos h

theorem complete_of_faulted {s : State} (h : ¬ s.Idle) (r : Reply) :
    complete r s = .fault (.blockFaulted s.fcause) := if_neg h

/-- Everything `complete` can do. -/
theorem complete_eq_next_iff {r : Reply} {s t : State} :
    complete r s = .next t ↔ s.Idle ∧ t = s.deliver r := by
  by_cases h : s.Idle
  · rw [complete_of_idle h, Host.Outcome.next.injEq, eq_comm]
    exact ⟨fun e => ⟨h, e⟩, fun e => e.2⟩
  · rw [complete_of_faulted h]
    exact ⟨nofun, fun e => absurd e.1 h⟩

/-- The reply of a command of the machine: it depends on the command alone (R27). -/
abbrev replyOf (i : Instr) : Reply := replyWith config i

/-- The machine is the instance with its own configuration (R29). -/
theorem exec_eq_execWith (i : Instr) (s : State) : exec i s = execWith config i s := by
  cases i <;> rfl

theorem step_eq_stepWith (s : State) : step s = stepWith config s := by
  rw [step, stepWith, show exec = execWith config from funext fun i => funext (exec_eq_execWith i)]

/-- Everything a command of an instance can do to the state. -/
theorem execWith_eq_next_iff {c : Config} {i : Instr} {s t : State} :
    execWith c i s = .next t ↔ s.Idle ∧ t = s.deliver (replyWith c i) := complete_eq_next_iff

/-- Every command is completed with its reply. -/
theorem exec_eq_complete (i : Instr) (s : State) : exec i s = complete (replyOf i) s := exec_eq_execWith i s

/-- Everything a command can do to the state. -/
theorem exec_eq_next_iff {i : Instr} {s t : State} :
    exec i s = .next t ↔ s.Idle ∧ t = s.deliver (replyOf i) := by
  rw [exec_eq_complete, complete_eq_next_iff]

/-- The reply of a frame to an instance: `IllegalCommand` when it is malformed. -/
def frameReplyWith (c : Config) (f : Bytes) : Reply :=
  match decodeWith c f with
  | .error _ => .fault .illegalCommand
  | .ok i => replyWith c i

/-- The reply of a frame to the machine. -/
abbrev frameReply (f : Bytes) : Reply := frameReplyWith config f

/-- An Idle block whose host presents a frame takes the frame and runs it. -/
theorem stepBy_of_frame {c : Config} {ex : Instr → State → Host.Outcome State Fault Refusal} {s : State} {f : Bytes}
    {rest : List HostEvent} (h : s.Idle) (he : s.inbox = .frame f :: rest) :
    stepBy c ex s = runFrame c ex f { s with inbox := rest } := by
  rw [stepBy, if_pos h, runIdle, he]

theorem runFrame_eq_complete (c : Config) (f : Bytes) (s : State) :
    runFrame c (execWith c) f s = complete (frameReplyWith c f) s := by
  unfold runFrame frameReplyWith
  cases decodeWith c f <;> rfl

/-- What `afterReset` finds: frames, then a reset, then the rest. -/
theorem afterReset_eq_some_iff {l rest : List HostEvent} :
    afterReset l = some rest ↔ ∃ pre, .reset ∉ pre ∧ l = pre ++ .reset :: rest := by
  induction l with
  | nil => simp [afterReset]
  | cons e l ih =>
    cases e with
    | frame f =>
      simp only [afterReset, ih]
      constructor
      · rintro ⟨pre, h, rfl⟩
        exact ⟨.frame f :: pre, by simp [h], rfl⟩
      · rintro ⟨pre, h, e⟩
        cases pre with
        | nil => simp at e
        | cons x pre =>
          simp only [List.cons_append, List.cons.injEq] at e
          exact ⟨pre, fun hm => h (List.mem_cons_of_mem _ hm), e.2⟩
    | reset =>
      simp only [afterReset, Option.some.injEq]
      constructor
      · rintro rfl
        exact ⟨[], by simp, rfl⟩
      · rintro ⟨pre, h, e⟩
        cases pre with
        | nil => simpa using e
        | cons x pre =>
          simp only [List.cons_append, List.cons.injEq] at e
          exact absurd (e.1 ▸ List.mem_cons_self) h

theorem afterReset_eq_none_iff {l : List HostEvent} : afterReset l = none ↔ .reset ∉ l := by
  induction l with
  | nil => simp [afterReset]
  | cons e l ih => cases e <;> simp [afterReset, ih]

/-- Everything one step of an instance can do: wait, take a reset, or answer a frame; each guard is stated. -/
theorem stepWith_cases {c : Config} {s t : State} (h : stepWith c s = .next t) :
    (s.Idle ∧ s.inbox = [] ∧ t = s) ∨
    (∃ pre rest, s.inbox = pre ++ .reset :: rest ∧ .reset ∉ pre ∧ (s.Idle → pre = []) ∧
      t = { s with inbox := rest, fcause := 0x00#8 }) ∨
    (s.Idle ∧ ∃ f rest, s.inbox = .frame f :: rest ∧ t = { s with inbox := rest }.deliver (frameReplyWith c f)) := by
  unfold stepWith stepBy at h
  split at h
  next hi =>
    unfold runIdle at h
    split at h
    next he => exact .inl ⟨hi, he, by simpa [eq_comm] using h⟩
    next rest he =>
      exact .inr (.inl ⟨[], rest, by simpa using he, by simp, fun _ => rfl, by
        simpa [State.resetEvent, eq_comm] using h⟩)
    next f rest he =>
      rw [runFrame_eq_complete, complete_eq_next_iff] at h
      exact .inr (.inr ⟨hi, f, rest, he, h.2⟩)
  next hi =>
    unfold runFaulted at h
    split at h
    next => simp at h
    next rest he =>
      obtain ⟨pre, hp, hl⟩ := afterReset_eq_some_iff.1 he
      exact .inr (.inl ⟨pre, rest, hl, hp, fun h' => absurd h' hi, by
        simpa [State.resetEvent, eq_comm] using h⟩)

/-- Everything one step of the machine can do. -/
theorem step_cases {s t : State} (h : step s = .next t) :
    (s.Idle ∧ s.inbox = [] ∧ t = s) ∨
    (∃ pre rest, s.inbox = pre ++ .reset :: rest ∧ .reset ∉ pre ∧ (s.Idle → pre = []) ∧
      t = { s with inbox := rest, fcause := 0x00#8 }) ∨
    (s.Idle ∧ ∃ f rest, s.inbox = .frame f :: rest ∧ t = { s with inbox := rest }.deliver (frameReply f)) :=
  stepWith_cases (step_eq_stepWith s ▸ h)

end Sys2Proof.Machine
end

