-- ==== Sys2Proof/Laws/Operands.lean ====
section
/-! SUPPORT. What the capacity tests do, what a reply of a unit function can be, and which commands fault
(spec/30_encoding.md R69, spec/60_exceptions.md R249, spec/44_transport.md R199). -/

namespace Sys2Proof.Machine

@[simp] theorem exceeds_none (n : Nat) : exceeds n none = false := rfl
@[simp] theorem exceeds_some (n cap : Nat) : exceeds n (some cap) = decide (cap < n) := rfl

@[simp] theorem config_maxBytes : config.caps.maxBytes = some 64 := rfl
@[simp] theorem config_maxSyms : config.caps.maxSyms = some 112 := rfl
@[simp] theorem config_maxPin : config.caps.maxPin = some 255 := rfl
@[simp] theorem config_maxShares : config.caps.maxShares = 8 := rfl
@[simp] theorem config_shareBlobLen : config.caps.shareBlobLen = 40 := rfl

@[simp] theorem guardCapacity_true (r : Reply) : guardCapacity true r = .err .capacity := rfl
@[simp] theorem guardCapacity_false (r : Reply) : guardCapacity false r = r := rfl

/-- Everything a capacity test can do. -/
theorem guardCapacity_cases (b : Bool) (r : Reply) :
    guardCapacity b r = .err .capacity ∨ (b = false ∧ guardCapacity b r = r) := by
  cases b <;> simp

theorem guardResult_ok (cap : Option Nat) (d : Bytes) :
    guardResult cap (.ok d) = guardCapacity (exceeds d.length cap) (.ok d) := rfl

/-- Everything the result test can do. -/
theorem guardResult_cases (cap : Option Nat) (r : Reply) :
    (∃ d, r = .ok d ∧ exceeds d.length cap = true ∧ guardResult cap r = .err .capacity) ∨
    (guardResult cap r = r ∧ ∀ d, r = .ok d → exceeds d.length cap = false) := by
  cases r with
  | ok d =>
    cases h : exceeds d.length cap with
    | true => exact .inl ⟨d, rfl, h, by simp [guardResult, h]⟩
    | false => exact .inr ⟨by simp [guardResult, h], by rintro _ ⟨⟩; exact h⟩
  | err k => exact .inr ⟨rfl, nofun⟩
  | fault c => exact .inr ⟨rfl, nofun⟩

/-- A command faults only when it is `TKENC` with a secret whose length is not 32 (R199). -/
theorem replyWith_eq_fault {cfg : Config} {i : Instr} {c : FaultCause} (h : replyWith cfg i = .fault c) :
    ∃ netid pin secret, i = .tkenc netid pin secret ∧ secret.length ≠ 32 ∧ c = .keyLengthError := by
  have hu : ∀ e : Except ErrKind Bytes, Reply.ofUnit e ≠ .fault c := fun e => by cases e <;> nofun
  have hg : ∀ b r, r ≠ .fault c → guardCapacity b r ≠ .fault c := fun b r hr => by cases b <;> simp [hr]
  have hr : ∀ cap r, r ≠ .fault c → guardResult cap r ≠ .fault c := fun cap r hr => by
    rcases guardResult_cases cap r with ⟨d, -, -, h⟩ | ⟨h, -⟩ <;> rw [h]
    · nofun
    · exact hr
  cases i with
  | b24enc d => exact absurd h (hg _ _ (hr _ _ nofun))
  | b24dec s => exact absurd h (hg _ _ (hr _ _ (hu _)))
  | b24decl e s => exact absurd h (hg _ _ (hr _ _ (hu _)))
  | nsmul d => exact absurd h (hg _ _ (hu _))
  | nsdiv d => exact absurd h (hg _ _ nofun)
  | pfxpack n c x => exact absurd h nofun
  | pfxvfy a n c x =>
    simp only [replyWith, pfxvfyReply] at h
    split at h <;> simp at h
  | pfxunpk w => exact absurd h nofun
  | cksum p s => exact absurd h nofun
  | ckvfy p s e =>
    simp only [replyWith, ckvfyReply] at h
    split at h <;> simp at h
  | tkenc n p s =>
    simp only [replyWith, tkencReply] at h
    split at h
    next hl => exact ⟨n, p, s, rfl, hl, by simpa [eq_comm] using h⟩
    next => exact absurd h (hg _ _ nofun)
  | tkdec n p s => exact absurd h (hg _ _ (hu _))
  | tkdecsh n c x p s => exact absurd h (hg _ _ (hu _))
  | shxor ss => exact absurd h nofun

theorem replyOf_eq_fault {i : Instr} {c : FaultCause} (h : replyOf i = .fault c) :
    ∃ netid pin secret, i = .tkenc netid pin secret ∧ secret.length ≠ 32 ∧ c = .keyLengthError := replyWith_eq_fault h

end Sys2Proof.Machine
end

