-- ==== Sys2Proof/Laws/PerInstr.lean ====
section
/-! SUPPORT. A statement about every command as syntax, one lemma per constructor: the frame of a well-formed command
has the length that spec/30_encoding.md R62 gives its format. -/

namespace Sys2Proof.Laws.EncodedLength
open Sys2Proof.Machine

/-- The frame's length is the total of its format, under every configuration. -/
def Statement (i : Instr) : Prop :=
  ∀ c : Config, i.wellFormedWith c = true → formatLength (encode i) = some (encode i).length

theorem u16At_zero (w : U16) (f : Bytes) : u16At (u16Bytes w ++ f) 0 = w.toNat := by
  have h := be_u16Bytes w
  simpa [u16At, byteAt, u16Bytes, be, Nat.mul_comm] using h

theorem u16At_cons (b : Byte) (f : Bytes) (o : Nat) : u16At (b :: f) (o + 1) = u16At f o := rfl

theorem u16At_append (a f : Bytes) (o : Nat) : u16At (a ++ f) (a.length + o) = u16At f o := by
  induction a with
  | nil => simp
  | cons x a ih =>
    rw [List.length_cons, Nat.add_right_comm, List.cons_append, u16At_cons, ih]

/-- The length field of a measured run reads as the run's length. -/
theorem u16At_measured {b : Bytes} (h : fitsU16 b = true) (f : Bytes) : u16At (measured b ++ f) 0 = b.length := by
  simp only [fitsU16, decide_eq_true_eq] at h
  rw [measured, List.append_assoc, u16At_zero]
  simp only [BitVec.toNat_ofNat]
  omega

theorem u16At_measured_nil {b : Bytes} (h : fitsU16 b = true) : u16At (measured b) 0 = b.length := by
  simpa using u16At_measured h []

theorem b24enc (data : Bytes) : Statement (.b24enc data) := fun c h => by
  have hm : u16At (encode (.b24enc data)) 1 = data.length := u16At_measured_nil h
  show some (3 + u16At (encode (.b24enc data)) 1) = _
  rw [hm]
  simp only [encode, encodeBody, List.length_cons, length_measured, Option.some.injEq]
  omega

theorem b24dec (str : Syms) : Statement (.b24dec str) := fun c h => by
  have hm : u16At (encode (.b24dec str)) 1 = str.length := u16At_measured_nil h
  show some (3 + u16At (encode (.b24dec str)) 1) = _
  rw [hm]
  simp only [encode, encodeBody, List.length_cons, length_measured, Option.some.injEq]
  omega

theorem b24decl (explen : U16) (str : Syms) : Statement (.b24decl explen str) := fun c h => by
  have hm : u16At (encode (.b24decl explen str)) 3 = str.length := u16At_measured_nil h
  show some (5 + u16At (encode (.b24decl explen str)) 3) = _
  rw [hm]
  simp only [encode, encodeBody, List.length_cons, List.length_append, length_u16Bytes, length_measured,
    Option.some.injEq]
  omega

theorem nsmul (data : Bytes) : Statement (.nsmul data) := fun c h => by
  have hm : u16At (encode (.nsmul data)) 1 = data.length := u16At_measured_nil h
  show some (3 + u16At (encode (.nsmul data)) 1) = _
  rw [hm]
  simp only [encode, encodeBody, List.length_cons, length_measured, Option.some.injEq]
  omega

theorem nsdiv (data : Bytes) : Statement (.nsdiv data) := fun c h => by
  have hm : u16At (encode (.nsdiv data)) 1 = data.length := u16At_measured_nil h
  show some (3 + u16At (encode (.nsdiv data)) 1) = _
  rw [hm]
  simp only [encode, encodeBody, List.length_cons, length_measured, Option.some.injEq]
  omega

theorem pfxpack (netid : U16) (count index : Byte) : Statement (.pfxpack netid count index) := fun _ _ => rfl

theorem pfxvfy (actual netid : U16) (count index : Byte) : Statement (.pfxvfy actual netid count index) := fun _ _ => rfl

theorem pfxunpk (word : U16) : Statement (.pfxunpk word) := fun _ _ => rfl

theorem cksum (pfx : U16) (secret : Bytes) : Statement (.cksum pfx secret) := fun c h => by
  have hs : secret.length = 32 := by simpa [Instr.wellFormedWith] using h
  show some 35 = _
  simp [encode, encodeBody, hs]

theorem ckvfy (pfx : U16) (secret embedded : Bytes) : Statement (.ckvfy pfx secret embedded) := fun c h => by
  have hs : secret.length = 32 ∧ embedded.length = 3 := by simpa [Instr.wellFormedWith] using h
  show some 38 = _
  simp [encode, encodeBody, hs.1, hs.2]

/-- Two measured runs one after the other, behind `k` bytes. -/
theorem u16At_two {a b : Bytes} (ha : fitsU16 a = true) (hb : fitsU16 b = true) (pre : Bytes) :
    u16At (pre ++ measured a ++ measured b) pre.length = a.length ∧
    u16At (pre ++ measured a ++ measured b) (pre.length + 2 + a.length) = b.length := by
  constructor
  · have h := u16At_append pre (measured a ++ measured b) 0
    rwa [u16At_measured ha, Nat.add_zero, ← List.append_assoc] at h
  · have h := u16At_append (pre ++ measured a) (measured b) 0
    rwa [u16At_measured_nil hb, Nat.add_zero, List.length_append, length_measured, ← Nat.add_assoc] at h

theorem tkenc (netid : U16) (pin secret : Bytes) : Statement (.tkenc netid pin secret) := fun c h => by
  have hw : fitsU16 pin = true ∧ fitsU16 secret = true := by simpa [Instr.wellFormedWith] using h
  have h2 := u16At_two hw.1 hw.2 (0x0B#8 :: u16Bytes netid)
  have e1 : u16At (encode (.tkenc netid pin secret)) 3 = pin.length := h2.1
  have e2 : u16At (encode (.tkenc netid pin secret)) (5 + pin.length) = secret.length := h2.2
  show some (7 + u16At (encode (.tkenc netid pin secret)) 3 +
    u16At (encode (.tkenc netid pin secret)) (5 + u16At (encode (.tkenc netid pin secret)) 3)) = _
  rw [e1, e2]
  simp only [encode, encodeBody, List.length_cons, List.length_append, length_u16Bytes, length_measured,
    Option.some.injEq]
  omega

theorem tkdec (netid : U16) (pin : Bytes) (str : Syms) : Statement (.tkdec netid pin str) := fun c h => by
  have hw : fitsU16 pin = true ∧ fitsU16 str = true := by simpa [Instr.wellFormedWith] using h
  have h2 := u16At_two hw.1 hw.2 (0x0C#8 :: u16Bytes netid)
  have e1 : u16At (encode (.tkdec netid pin str)) 3 = pin.length := h2.1
  have e2 : u16At (encode (.tkdec netid pin str)) (5 + pin.length) = str.length := h2.2
  show some (7 + u16At (encode (.tkdec netid pin str)) 3 +
    u16At (encode (.tkdec netid pin str)) (5 + u16At (encode (.tkdec netid pin str)) 3)) = _
  rw [e1, e2]
  simp only [encode, encodeBody, List.length_cons, List.length_append, length_u16Bytes, length_measured,
    Option.some.injEq]
  omega

theorem tkdecsh (netid : U16) (count index : Byte) (pin : Bytes) (str : Syms) :
    Statement (.tkdecsh netid count index pin str) := fun c h => by
  have hw : fitsU16 pin = true ∧ fitsU16 str = true := by simpa [Instr.wellFormedWith] using h
  have h2 := u16At_two hw.1 hw.2 (0x0D#8 :: (u16Bytes netid ++ [count, index]))
  have e1 : u16At (encode (.tkdecsh netid count index pin str)) 5 = pin.length := h2.1
  have e2 : u16At (encode (.tkdecsh netid count index pin str)) (7 + pin.length) = str.length := h2.2
  show some (9 + u16At (encode (.tkdecsh netid count index pin str)) 5 +
    u16At (encode (.tkdecsh netid count index pin str)) (7 + u16At (encode (.tkdecsh netid count index pin str)) 5)) = _
  rw [e1, e2]
  simp only [encode, encodeBody, List.length_cons, List.length_append, length_u16Bytes, length_measured,
    List.length_nil, Option.some.injEq]
  omega

theorem length_flatten_of {k : Nat} (l : List Bytes) (h : ∀ x ∈ l, x.length = k) : l.flatten.length = k * l.length := by
  induction l with
  | nil => rfl
  | cons x l ih =>
    rw [List.flatten_cons, List.length_append, h x List.mem_cons_self,
      ih fun y hy => h y (List.mem_cons_of_mem _ hy), List.length_cons, Nat.mul_succ, Nat.add_comm]

theorem shxor (shares : List Bytes) : Statement (.shxor shares) := fun c h => by
  have hw : (1 ≤ shares.length ∧ shares.length ≤ c.caps.maxShares) ∧ ∀ x ∈ shares, x.length = 32 := by
    simp only [Instr.wellFormedWith, Bool.and_eq_true, decide_eq_true_eq, List.all_eq_true, beq_iff_eq] at h
    exact h
  have hc : byteAt (encode (.shxor shares)) 1 = shares.length := by
    show (BitVec.ofNat 8 shares.length).toNat = _
    have := c.caps.maxShares_le
    rw [BitVec.toNat_ofNat]
    omega
  show some (2 + 32 * byteAt (encode (.shxor shares)) 1) = _
  rw [hc]
  simp only [encode, encodeBody, List.length_cons, length_flatten_of shares hw.2, Option.some.injEq]
  omega

end Sys2Proof.Laws.EncodedLength
end

