-- ==== Sys2Proof/Laws/ShareCombiner.lean ====
section
/-! SUPPORT. The combiner at one index (spec/45_share_combiner.md R220). -/

namespace Sys2Proof.Machine

@[simp] theorem length_xorBytes (a b : Bytes) : (xorBytes a b).length = min a.length b.length := by
  simp [xorBytes]

theorem getD_xorBytes {a b : Bytes} (h : a.length = b.length) (i : Nat) :
    (xorBytes a b).getD i 0#8 = a.getD i 0#8 ^^^ b.getD i 0#8 := by
  by_cases hi : i < a.length
  · have hi' : i < b.length := by omega
    rw [List.getD_eq_getElem _ _ (by simp [hi, hi']), List.getD_eq_getElem _ _ hi, List.getD_eq_getElem _ _ hi']
    simp [xorBytes]
  · rw [List.getD_eq_default _ _ (by simp; omega), List.getD_eq_default _ _ (by omega),
      List.getD_eq_default _ _ (by omega)]
    rfl

/-- What a list of shares combines to at one index. -/
def xorAt (shares : List Bytes) (i : Nat) : Byte := (shares.map (fun x => x.getD i 0#8)).foldr (· ^^^ ·) 0#8

theorem xorAt_cons (s : Bytes) (l : List Bytes) (i : Nat) : xorAt (s :: l) i = s.getD i 0#8 ^^^ xorAt l i := rfl

theorem xorAt_append (l l' : List Bytes) (i : Nat) : xorAt (l ++ l') i = xorAt l i ^^^ xorAt l' i := by
  induction l with
  | nil => simp [xorAt]
  | cons s l ih => rw [List.cons_append, xorAt_cons, xorAt_cons, ih, BitVec.xor_assoc]

theorem xorAt_perm {l l' : List Bytes} (h : l.Perm l') (i : Nat) : xorAt l i = xorAt l' i := by
  induction h with
  | nil => rfl
  | cons x _ ih => rw [xorAt_cons, xorAt_cons, ih]
  | swap x y l => simp only [xorAt_cons, ← BitVec.xor_assoc, BitVec.xor_comm (y.getD i 0#8)]
  | trans _ _ ih ih' => exact ih.trans ih'

theorem foldl_xorBytes {k : Nat} (l : List Bytes) (s : Bytes) (hs : s.length = k) (h : ∀ x ∈ l, x.length = k) :
    (l.foldl xorBytes s).length = k ∧ ∀ i, (l.foldl xorBytes s).getD i 0#8 = s.getD i 0#8 ^^^ xorAt l i := by
  induction l generalizing s with
  | nil => simp [xorAt, hs]
  | cons x l ih =>
    have hx := h x List.mem_cons_self
    obtain ⟨h1, h2⟩ := ih (xorBytes s x) (by simp [hs, hx]) fun y hy => h y (List.mem_cons_of_mem _ hy)
    refine ⟨h1, fun i => ?_⟩
    rw [List.foldl_cons, h2, getD_xorBytes (by omega), xorAt_cons, BitVec.xor_assoc]

/-- Everything the combiner does to one or more shares of one length (R220). -/
theorem combineShares_spec {k : Nat} {shares : List Bytes} (hn : 1 ≤ shares.length) (h : ∀ x ∈ shares, x.length = k) :
    (combineShares shares).length = k ∧ ∀ i, (combineShares shares).getD i 0#8 = xorAt shares i := by
  cases shares with
  | nil => simp at hn
  | cons s l =>
    have := foldl_xorBytes l s (h s List.mem_cons_self) fun x hx => h x (List.mem_cons_of_mem _ hx)
    exact ⟨this.1, fun i => this.2 i⟩

/-- Buffers of one length that agree at every index are equal. -/
theorem ext_getD {a b : Bytes} (hl : a.length = b.length) (h : ∀ i < a.length, a.getD i 0#8 = b.getD i 0#8) : a = b := by
  apply List.ext_getElem hl
  intro i h1 h2
  have := h i h1
  rwa [List.getD_eq_getElem _ _ h1, List.getD_eq_getElem _ _ h2] at this

/-- Lists of shares that agree at every index combine to the same bytes (R222). -/
theorem combineShares_congr {k : Nat} {l l' : List Bytes} (hn : 1 ≤ l.length) (hn' : 1 ≤ l'.length)
    (h : ∀ x ∈ l, x.length = k) (h' : ∀ x ∈ l', x.length = k) (he : ∀ i, xorAt l i = xorAt l' i) :
    combineShares l = combineShares l' := by
  obtain ⟨h1, h2⟩ := combineShares_spec hn h
  obtain ⟨h3, h4⟩ := combineShares_spec hn' h'
  exact ext_getD (by omega) fun i _ => by rw [h2, h4, he]

end Sys2Proof.Machine
end

