-- ==== Sys2Proof/Laws/Transport.lean ====
section
/-! SUPPORT. Prefix words, the payload and its parts, opening a payload, and the shifts of the share path
(spec/42_prefix.md R141, R145, spec/44_transport.md R184 to R189). -/

namespace Sys2Proof.Machine

/-! ### Prefix words -/

theorem pack_toNat (n c x : Nat) : (pack n c x).toNat = n % 1024 * 64 + (c + 7) % 8 * 8 + x % 8 := by
  rw [pack, BitVec.toNat_ofNat, Nat.mod_eq_of_lt (by omega)]

/-- Two words are equal exactly when their three masked fields are (R141). -/
theorem pack_eq_iff {n c x n' c' x' : Nat} :
    pack n c x = pack n' c' x' ↔ n % 1024 = n' % 1024 ∧ (c + 7) % 8 = (c' + 7) % 8 ∧ x % 8 = x' % 8 := by
  rw [← BitVec.toNat_inj, pack_toNat, pack_toNat]
  omega

/-- The word as its fields side by side (R140). -/
theorem pack_eq_append (netid : U16) (count index : Byte) :
    pack netid.toNat count.toNat index.toNat =
      (netid.extractLsb' 0 10 ++ (count - 1#8).extractLsb' 0 3 ++ index.extractLsb' 0 3 : BitVec 16) := by
  apply BitVec.eq_of_toNat_eq
  rw [pack_toNat, BitVec.toNat_append, BitVec.toNat_append, ← Nat.shiftLeft_add_eq_or_of_lt (BitVec.isLt _),
    ← Nat.shiftLeft_add_eq_or_of_lt (BitVec.isLt _), Nat.shiftLeft_eq, Nat.shiftLeft_eq]
  simp only [BitVec.extractLsb'_toNat, Nat.shiftRight_zero, BitVec.toNat_sub]
  have := count.isLt
  simp
  omega

/-! ### Buffers of a fixed length -/

@[simp] theorem toList_toVec {n : Nat} {b : Bytes} (h : b.length = n) : (toVec n b).toList = b := by
  subst h
  simp [toVec]

@[simp] theorem toVec_toList {n : Nat} (v : Vector Byte n) : toVec n v.toList = v :=
  Vector.toList_inj.1 (toList_toVec (by simp))

@[simp] theorem length_encBlock (p : OpenParams) (k : Vector Byte 32) (b : Bytes) : (encBlock p k b).length = 16 := by
  simp [encBlock]

@[simp] theorem length_decBlock (p : OpenParams) (k : Vector Byte 32) (b : Bytes) : (decBlock p k b).length = 16 := by
  simp [decBlock]

/-- The law of R183 on 16-byte buffers. -/
theorem decBlock_encBlock {p : OpenParams} {k : Vector Byte 32} {b : Bytes} (h : b.length = 16) :
    decBlock p k (encBlock p k b) = b := by
  rw [decBlock, encBlock, toVec_toList, p.cipher.dec_enc, toList_toVec h]

@[simp] theorem length_computeChecksum (p : OpenParams) (pfx : U16) (secret : Bytes) :
    (computeChecksum p pfx secret).length = 3 := rfl

/-- The last nibble of a computed checksum is zero (R161). -/
theorem be_computeChecksum_mod (p : OpenParams) (pfx : U16) (secret : Bytes) :
    be (computeChecksum p pfx secret) % 16 = 0 := by
  simp only [computeChecksum, be, List.foldl_cons, List.foldl_nil, and_f0_toNat]
  omega

/-! ### The payload -/

@[simp] theorem length_payloadOf (p : OpenParams) (pfx : U16) (pin secret : Bytes) :
    (payloadOf p pfx pin secret).length = 37 := by
  simp [payloadOf]

/-- The last nibble of a payload is zero (R125). -/
theorem be_payloadOf_mod (p : OpenParams) (pfx : U16) (pin secret : Bytes) :
    be (payloadOf p pfx pin secret) % 16 = 0 := by
  have := be_computeChecksum_mod p pfx secret
  simp only [payloadOf]
  rw [be_append, length_computeChecksum]
  omega

theorem slice_append_mid (a b c : Bytes) : slice (a ++ b ++ c) a.length (a.length + b.length) = b := by
  simp [slice, List.take_append]

theorem slice_payloadOf (p : OpenParams) (pfx : U16) (pin secret : Bytes) :
    slice (payloadOf p pfx pin secret) 0 2 = u16Bytes pfx ∧
    slice (payloadOf p pfx pin secret) 2 18 =
      encBlock p (deriveKeys p pin (computeChecksum p pfx secret)).1 (slice secret 0 16) ∧
    slice (payloadOf p pfx pin secret) 18 34 =
      encBlock p (deriveKeys p pin (computeChecksum p pfx secret)).2 (slice secret 16 32) ∧
    slice (payloadOf p pfx pin secret) 34 37 = computeChecksum p pfx secret := by
  simp only [payloadOf]
  generalize hx : encBlock p (deriveKeys p pin (computeChecksum p pfx secret)).1 (slice secret 0 16) = x
  generalize hy : encBlock p (deriveKeys p pin (computeChecksum p pfx secret)).2 (slice secret 16 32) = y
  have hxl : x.length = 16 := by rw [← hx]; simp
  have hyl : y.length = 16 := by rw [← hy]; simp
  generalize hc : computeChecksum p pfx secret = c
  have hcl : c.length = 3 := by rw [← hc]; rfl
  refine ⟨?_, ?_, ?_, ?_⟩
  · simpa using slice_append_mid [] (u16Bytes pfx) (x ++ (y ++ c))
  · have := slice_append_mid (u16Bytes pfx) x (y ++ c)
    simpa [hxl] using this
  · have := slice_append_mid (u16Bytes pfx ++ x) y c
    simpa [hxl, hyl] using this
  · have := slice_append_mid (u16Bytes pfx ++ x ++ y) c []
    simpa [hxl, hyl, hcl] using this

theorem ofNat_be_u16Bytes (w : U16) : BitVec.ofNat 16 (be (u16Bytes w)) = w := by
  rw [be_u16Bytes]
  simp

/-- Everything `openPayload` can do, the first failing test in order (R187, R250). -/
theorem openPayload_eq (p : OpenParams) (payload pin : Bytes) (n c x : Nat) :
    openPayload p payload pin n c x =
      let pfx : U16 := BitVec.ofNat 16 (be (slice payload 0 2))
      let embedded := slice payload 34 37
      let keys := deriveKeys p pin embedded
      let secret := decBlock p keys.1 (slice payload 2 18) ++ decBlock p keys.2 (slice payload 18 34)
      if pfx ≠ pack n c x then .error .prefixMismatch
      else if computeChecksum p pfx secret ≠ embedded then .error .checksumMismatch
      else .ok secret := by
  unfold openPayload verifyPrefix validateChecksum
  by_cases h : BitVec.ofNat 16 (be (slice payload 0 2)) = pack n c x
  · simp only [h, if_true, ne_eq, not_true_eq_false, if_false]
    split <;> rfl
  · simp only [h, if_false, ne_eq, not_false_eq_true, if_true]
    rfl

/-- Opening a payload under its own prefix and PIN gives the secret (R197). -/
theorem openPayload_payloadOf {p : OpenParams} {pfx : U16} {pin secret : Bytes} {n c x : Nat}
    (h : secret.length = 32) (hp : pfx = pack n c x) :
    openPayload p (payloadOf p pfx pin secret) pin n c x = .ok secret := by
  obtain ⟨h1, h2, h3, h4⟩ := slice_payloadOf p pfx pin secret
  rw [openPayload_eq]
  simp only [h1, h2, h3, h4, ofNat_be_u16Bytes]
  rw [if_neg (by simpa using hp), decBlock_encBlock (by simp [slice]; omega), decBlock_encBlock (by simp [slice]; omega)]
  have : slice secret 0 16 ++ slice secret 16 32 = secret := by
    simp [slice, ← h]
  rw [this]
  simp

/-- Opening a payload under another prefix is refused whatever the PIN (R187). -/
theorem openPayload_payloadOf_of_ne {p : OpenParams} {pfx : U16} {pin pin' secret : Bytes} {n c x : Nat}
    (hp : pfx ≠ pack n c x) : openPayload p (payloadOf p pfx pin secret) pin' n c x = .error .prefixMismatch := by
  obtain ⟨h1, -, -, -⟩ := slice_payloadOf p pfx pin secret
  rw [openPayload_eq]
  simp only [h1, ofNat_be_u16Bytes]
  rw [if_pos hp]

/-- An opened payload has 32 bytes. -/
theorem length_of_openPayload {p : OpenParams} {payload pin out : Bytes} {n c x : Nat}
    (h : openPayload p payload pin n c x = .ok out) : out.length = 32 := by
  rw [openPayload_eq] at h
  simp only at h
  split at h
  · simp at h
  · split at h
    · simp at h
    · rw [← Except.ok.inj h]
      simp

/-- The decrypting pipeline on a string that was encrypted, up to opening the payload (R197). -/
theorem decryptSingle_encryptSingle (p : OpenParams) (secret pin pin' : Bytes) (netid netid' : Nat) :
    decryptSingle p (encryptSingle p secret pin netid) pin' netid' =
      openPayload p (payloadOf p (pack netid 1 0) pin secret) pin' netid' 1 0 := by
  rw [decryptSingle, encryptSingle, b24decode_b24encode _ _ (.inr (by simp [payloadLen]))]
  simp only [bind, Except.bind]
  rw [shiftLeft4_shiftRight4_of_low (be_payloadOf_mod _ _ _ _)]

/-- A transport string has at most 64 symbols (R45). -/
theorem length_encryptSingle_le (p : OpenParams) (secret pin : Bytes) (netid : Nat) :
    (encryptSingle p secret pin netid).length ≤ 64 := by
  apply length_b24encode_le_64 (by simp)
  have := be_lt (payloadOf p (pack netid 1 0) pin secret)
  rw [length_payloadOf, show (37 : Nat) = 36 + 1 from rfl, pow_succ] at this
  rw [be_shiftRight4]
  omega

/-! ### The share path -/

theorem getD_slice_zero (b : Bytes) (k i : Nat) : (slice b 0 k).getD i 0#8 = if i < k then b.getD i 0#8 else 0#8 := by
  simp only [slice, List.drop_zero, List.getD_eq_getElem?_getD, List.getElem?_take]
  split <;> rfl

theorem nibbles_nibbles (x y z : Byte) : nibbles (nibbles x y) (nibbles y z) = y := by
  apply BitVec.eq_of_toNat_eq
  rw [nibbles_toNat, nibbles_toNat, nibbles_toNat]
  have := z.isLt
  omega

theorem nibbles_zero (x y : Byte) : nibbles (nibbles x y) 0#8 = y &&& 0xF0#8 := by
  apply BitVec.eq_of_toNat_eq
  rw [nibbles_toNat, nibbles_toNat, and_f0_toNat]
  have := y.isLt
  simp
  omega

/-- The two shifts of the share path in closed form (R189). -/
theorem shareShifts_eq {b : Bytes} (h : b.length = 40) :
    (do let outer ← shiftLeft4 b; shiftLeft4 (slice outer 0 payloadLen)) =
      if b.getD 0 0#8 = 0#8 then .ok (slice b 1 37 ++ [b.getD 37 0#8 &&& 0xF0#8]) else .error .overflow := by
  have h0 : b.getD 0 0#8 = 0#8 ↔ (b.getD 0 0#8).toNat = 0 := by
    rw [← BitVec.toNat_inj]
    simp
  rw [shiftLeft4_eq]
  by_cases h1 : (b.getD 0 0#8).toNat < 0x10
  · rw [if_pos h1]
    simp only [bind, Except.bind]
    have hP : ∀ i, (slice (leftBytes b) 0 payloadLen).getD i 0#8 =
        if i < 37 then nibbles (b.getD i 0#8) (b.getD (i + 1) 0#8) else 0#8 := by
      intro i
      rw [show payloadLen = 37 from rfl, getD_slice_zero]
      by_cases hi : i < 37
      · rw [if_pos hi, if_pos hi, getD_leftBytes (by omega)]
      · rw [if_neg hi, if_neg hi]
    have hl : (slice (leftBytes b) 0 payloadLen).length = 37 := by
      simp [slice, payloadLen, length_leftBytes, h]
    have hhead := hP 0
    simp only [Nat.zero_lt_succ, if_true, Nat.zero_add] at hhead
    rw [shiftLeft4_eq, hhead, nibbles_toNat]
    have := (b.getD 1 0#8).isLt
    by_cases h2 : b.getD 0 0#8 = 0#8
    · rw [if_pos (by have := h0.1 h2; omega), if_pos h2]
      congr 1
      apply List.ext_getElem
      · rw [length_leftBytes, hl]
        simp [slice, h]
      · intro i hi hi'
        rw [length_leftBytes, hl] at hi
        rw [← List.getD_eq_getElem _ 0#8, getD_leftBytes (by omega), hP, hP]
        by_cases h36 : i < 36
        · rw [if_pos (by omega), if_pos (by omega), nibbles_nibbles, List.getElem_append_left (by simp [slice]; omega),
            List.getD_eq_getElem _ _ (by omega)]
          simp [slice]
        · obtain rfl : i = 36 := by omega
          rw [if_pos (by omega), if_neg (by omega), nibbles_zero, List.getElem_append_right (by simp [slice])]
          simp [slice]
    · rw [if_neg (by have := mt h0.2 h2; omega), if_neg h2]
  · rw [if_neg h1, if_neg (by rw [h0]; omega)]
    rfl

end Sys2Proof.Machine
end

