-- ==== Sys2Proof/Tests/Toy.lean ====
section
/-! SUPPORT. The test configuration `CT` of spec/95_test_vectors.md section 0: `ALPHABET_T` and the toy collaborators.
No rule depends on it; the vectors of that file are checked under it. -/

namespace Sys2Proof.Tests
open Sys2Proof.Machine

/-- `roll(seed, x)`. -/
def roll (seed : Nat) (x : Bytes) : Nat := x.foldl (fun h b => (h * 257 + b.toNat + 1) % 65521) seed

/-- `spread(h, n)`. -/
def spread (h n : Nat) : Vector Byte n :=
  ⟨((List.range n).map fun i => BitVec.ofNat 8 (h / 256 + h % 256 * (i + 1))).toArray, by simp⟩

/-- The sum of a block, byte by byte, with both halves of a key, or its inverse. -/
def addKey (f : Byte → Byte → Byte) (k : Vector Byte 32) (b : Vector Byte 16) : Vector Byte 16 :=
  ⟨((b.toList.zip (k.toList.zip (k.toList.drop 16))).map fun t => f t.1 (t.2.1 + t.2.2)).toArray, by simp⟩

theorem addKey_sub_add (k : Vector Byte 32) (b : Vector Byte 16) :
    addKey (fun x y => x - y) k (addKey (fun x y => x + y) k b) = b := by
  obtain ⟨⟨b⟩, hb⟩ := b
  obtain ⟨⟨k⟩, hk⟩ := k
  apply Vector.toList_inj.1
  have hb' : b.length = 16 := by simpa using hb
  have hk' : k.length = 32 := by simpa using hk
  apply List.ext_getElem
  · simp [addKey, hb', hk']
  · intro i h1 h2
    simp [addKey]

/-- Configuration `CT` with the default capacities. -/
def toyConfig : Config :=
  { params :=
      { alphabet := { codes := (List.range 10).map (fun i => BitVec.ofNat 8 (0x30 + i)) ++
                        (List.range 14).map (fun i => BitVec.ofNat 8 (0x61 + i)) }
        sha256 := fun x => spread (roll 1 x) 32
        sha512 := fun x => spread (roll 2 x) 64
        scrypt := fun pw salt _ _ _ n => spread (roll 3 (pw ++ [0xFF#8] ++ salt)) n
        cipher := { enc := addKey (fun x y => x + y), dec := addKey (fun x y => x - y), dec_enc := addKey_sub_add } }
    caps := defaultCaps }

/-- A symbol string written as digits, `d[...]` of R71, under `ALPHABET_T`. -/
def digits (ds : List Nat) : Syms := ds.map (symOf toyConfig.params.alphabet)

/-- A byte buffer written as one number of `n` bytes, the first byte most significant: `h"..."` of R71. -/
def hex (n v : Nat) : Bytes := bytesN n v

/-- The 32 bytes 0x00 to 0x1F of the fixture (spec/95_test_vectors.md S7). -/
def fixtureSecret : Bytes := (List.range 32).map (BitVec.ofNat 8)

/-- The PIN "1234". -/
def pin1234 : Bytes := [0x31#8, 0x32#8, 0x33#8, 0x34#8]

end Sys2Proof.Tests
end

