-- ==== Sys2Proof/Tests/Slice0.lean ====
section
/-! SUPPORT. Checks of the model: ill-formed commands, words written out from spec/30_encoding.md R72, the vectors of
spec/95_test_vectors.md (named V, K, F, P there), and for every statement with hypotheses a concrete input that meets
them. -/

namespace Sys2Proof.Tests
open Sys2Proof.Machine

/-- A run of `n` zero bytes. -/
def run (n : Nat) : Bytes := List.replicate n 0#8

theorem length_run (n : Nat) : (run n).length = n := by simp [run]

/-! ## Ill-formed commands are refused by each check of WellFormed -/

theorem test_wf_b24enc_run : Instr.wellFormed (.b24enc (run 65536)) = false := by
  simp [Instr.wellFormedWith, fitsU16, length_run]
theorem test_wf_b24dec_run : Instr.wellFormed (.b24dec (run 65536)) = false := by
  simp [Instr.wellFormedWith, fitsU16, length_run]
theorem test_wf_b24decl_run : Instr.wellFormed (.b24decl 0#16 (run 65536)) = false := by
  simp [Instr.wellFormedWith, fitsU16, length_run]
theorem test_wf_nsmul_run : Instr.wellFormed (.nsmul (run 65536)) = false := by
  simp [Instr.wellFormedWith, fitsU16, length_run]
theorem test_wf_nsdiv_run : Instr.wellFormed (.nsdiv (run 65536)) = false := by
  simp [Instr.wellFormedWith, fitsU16, length_run]
theorem test_wf_cksum_secret : Instr.wellFormed (.cksum 0#16 (List.replicate 31 0#8)) = false := by decide
theorem test_wf_ckvfy_secret : Instr.wellFormed (.ckvfy 0#16 (List.replicate 33 0#8) [0#8, 0#8, 0#8]) = false := by decide
theorem test_wf_ckvfy_embedded : Instr.wellFormed (.ckvfy 0#16 fixtureSecret [0#8, 0#8]) = false := by decide
theorem test_wf_tkenc_pin : Instr.wellFormed (.tkenc 0#16 (run 65536) []) = false := by
  simp [Instr.wellFormedWith, fitsU16, length_run]
theorem test_wf_tkenc_secret : Instr.wellFormed (.tkenc 0#16 [] (run 65536)) = false := by
  simp [Instr.wellFormedWith, fitsU16, length_run]
theorem test_wf_tkdec_pin : Instr.wellFormed (.tkdec 0#16 (run 65536) []) = false := by
  simp [Instr.wellFormedWith, fitsU16, length_run]
theorem test_wf_tkdec_str : Instr.wellFormed (.tkdec 0#16 [] (run 65536)) = false := by
  simp [Instr.wellFormedWith, fitsU16, length_run]
theorem test_wf_tkdecsh_pin : Instr.wellFormed (.tkdecsh 0#16 1#8 0#8 (run 65536) []) = false := by
  simp [Instr.wellFormedWith, fitsU16, length_run]
theorem test_wf_tkdecsh_str : Instr.wellFormed (.tkdecsh 0#16 1#8 0#8 [] (run 65536)) = false := by
  simp [Instr.wellFormedWith, fitsU16, length_run]
theorem test_wf_shxor_none : Instr.wellFormed (.shxor []) = false := by decide
theorem test_wf_shxor_nine : Instr.wellFormed (.shxor (List.replicate 9 fixtureSecret)) = false := by decide
theorem test_wf_shxor_short : Instr.wellFormed (.shxor [fixtureSecret, List.replicate 31 0#8]) = false := by decide

/-! ## The frames of R72, written out -/

theorem test_decode_b24enc : decode [0x01#8, 0x00#8, 0x02#8, 0x00#8, 0xff#8] = .ok (.b24enc [0x00#8, 0xff#8]) := by decide
theorem test_decode_b24dec :
    decode [0x02#8, 0x00#8, 0x03#8, 0x30#8, 0x61#8, 0x66#8] = .ok (.b24dec [0x30#8, 0x61#8, 0x66#8]) := by decide
theorem test_decode_b24decl : decode [0x03#8, 0x00#8, 0x02#8, 0x00#8, 0x03#8, 0x30#8, 0x61#8, 0x66#8] =
    .ok (.b24decl 2#16 [0x30#8, 0x61#8, 0x66#8]) := by decide
theorem test_decode_nsmul :
    decode [0x04#8, 0x00#8, 0x03#8, 0x0a#8, 0xbc#8, 0xde#8] = .ok (.nsmul [0x0a#8, 0xbc#8, 0xde#8]) := by decide
theorem test_decode_nsdiv :
    decode [0x05#8, 0x00#8, 0x03#8, 0xab#8, 0xcd#8, 0xef#8] = .ok (.nsdiv [0xab#8, 0xcd#8, 0xef#8]) := by decide
theorem test_decode_pfxpack :
    decode [0x06#8, 0x01#8, 0x28#8, 0x01#8, 0x00#8] = .ok (.pfxpack 0x128#16 1#8 0#8) := by decide
theorem test_decode_pfxvfy : decode [0x07#8, 0x4a#8, 0x00#8, 0x01#8, 0x28#8, 0x01#8, 0x00#8] =
    .ok (.pfxvfy 0x4a00#16 0x128#16 1#8 0#8) := by decide
theorem test_decode_pfxunpk : decode [0x08#8, 0x4a#8, 0x11#8] = .ok (.pfxunpk 0x4a11#16) := by decide
theorem test_decode_cksum :
    decode ([0x09#8, 0x4a#8, 0x00#8] ++ fixtureSecret) = .ok (.cksum 0x4a00#16 fixtureSecret) := by decide +kernel
theorem test_decode_ckvfy : decode ([0x0a#8, 0x4a#8, 0x00#8] ++ fixtureSecret ++ [0x4c#8, 0x04#8, 0x20#8]) =
    .ok (.ckvfy 0x4a00#16 fixtureSecret [0x4c#8, 0x04#8, 0x20#8]) := by decide +kernel
theorem test_decode_tkenc : decode ([0x0b#8, 0x01#8, 0x28#8, 0x00#8, 0x04#8, 0x31#8, 0x32#8, 0x33#8, 0x34#8, 0x00#8,
    0x20#8] ++ fixtureSecret) = .ok (.tkenc 0x128#16 pin1234 fixtureSecret) := by decide +kernel
theorem test_decode_tkdec : decode ([0x0c#8, 0x01#8, 0x28#8, 0x00#8, 0x04#8, 0x31#8, 0x32#8, 0x33#8, 0x34#8, 0x00#8,
    0x40#8] ++ List.replicate 64 0x62#8) = .ok (.tkdec 0x128#16 pin1234 (List.replicate 64 0x62#8)) := by decide +kernel
theorem test_decode_tkdecsh : decode ([0x0d#8, 0x01#8, 0x28#8, 0x03#8, 0x01#8, 0x00#8, 0x04#8, 0x31#8, 0x32#8, 0x33#8,
    0x34#8, 0x00#8, 0x45#8] ++ List.replicate 69 0x62#8) =
    .ok (.tkdecsh 0x128#16 3#8 1#8 pin1234 (List.replicate 69 0x62#8)) := by decide +kernel
theorem test_decode_shxor : decode ([0x0e#8, 0x02#8] ++ List.replicate 32 0xaa#8 ++ List.replicate 32 0x55#8) =
    .ok (.shxor [List.replicate 32 0xaa#8, List.replicate 32 0x55#8]) := by decide +kernel

/-- A configuration with another `MAXSHARES` (R8): its largest value. -/
def manyShares : Config :=
  { toyConfig with caps := { maxBytes := some 64, maxSyms := some 112, maxPin := some 255, maxShares := 255, shareBlobLen := 40 } }

/-- A configuration without bounds (R8). -/
def unbounded : Config :=
  { toyConfig with caps := { maxBytes := none, maxSyms := none, maxPin := none, maxShares := 8, shareBlobLen := 40 } }

/-- Nine shares are one too many for the machine's configuration and not for another. -/
theorem test_decodeWith_maxShares :
    decodeWith toyConfig (encode (.shxor (List.replicate 9 fixtureSecret))) = .error (.shareCount 9#8) ∧
    decodeWith manyShares (encode (.shxor (List.replicate 9 fixtureSecret))) =
      .ok (.shxor (List.replicate 9 fixtureSecret)) := by decide +kernel

/-! ## Malformed frames, by name: V96 to V102, V87, V88, V89 -/

theorem test_decode_empty : decode [] = .error .emptyFrame := by decide
theorem test_decode_reserved : decode [0x00#8] = .error (.reservedOpcode 0x00#8) ∧
    decode [0x0f#8] = .error (.reservedOpcode 0x0f#8) ∧ decode [0xff#8] = .error (.reservedOpcode 0xff#8) := by decide
theorem test_decode_truncated : decode [0x01#8, 0x00#8, 0x02#8, 0xff#8] = .error .truncated ∧
    decode [0x06#8, 0x01#8, 0x28#8, 0x01#8] = .error .truncated ∧
    decode ([0x09#8, 0x4a#8, 0x00#8] ++ List.replicate 31 0#8) = .error .truncated ∧
    decode ([0x0e#8, 0x02#8] ++ List.replicate 63 0#8) = .error .truncated := by decide +kernel
theorem test_decode_trailing : decode [0x01#8, 0x00#8, 0x01#8, 0xff#8, 0xff#8] = .error .trailingBytes := by decide
theorem test_decode_shareCount : decode [0x0e#8, 0x00#8] = .error (.shareCount 0#8) ∧
    decode ([0x0e#8, 0x09#8] ++ List.replicate 288 0#8) = .error (.shareCount 9#8) := by decide +kernel

/-- A table word becomes a frame with operands of zeros; `SHXOR`'s has no share and is rejected (R63 (e)). -/
theorem test_decodeTableWord : decodeTableWord 8 0x01 = some (.b24enc []) ∧
    decodeTableWord 8 0x08 = some (.pfxunpk 0#16) ∧ decodeTableWord 24 0x114a08 = some (.pfxunpk 0x4a11#16) ∧
    decodeTableWord 8 0x0E = none ∧ decodeTableWord 8 0x0F = none := by decide
theorem test_withFetchWord_runs : ∀ w, w < 15 → 1 ≤ w → step (State.reset.withFetchWord 8 w) =
    match decodeTableWord 8 w with
    | some i => exec i State.reset
    | none => .next (State.reset.raiseFault .illegalCommand) := by
  intro w _ _
  rw [step, stepBy_of_frame rfl rfl, runFrame, decodeTableWord, decode]
  cases decodeWith config (tableFrame 8 w) <;> rfl

/-! ## Base24: V8, V11, V106, V18, V24, V19, V30 and 64 bytes of 0xFF -/

theorem test_b24enc_V8 : b24encReply toyConfig [0x00#8, 0xff#8] = .ok [0x30#8, 0x61#8, 0x66#8] := by decide
theorem test_b24enc_V15 : b24encReply toyConfig (List.replicate 8 0xff#8) =
    .ok (digits [21, 1, 2, 14, 14, 5, 15, 23, 0, 19, 18, 1, 18, 15]) := by decide +kernel
theorem test_b24dec_V18_V24 : b24decReply toyConfig (digits [0, 1, 0]) = .ok [0x00#8, 0x18#8] ∧
    b24decReply toyConfig [0x35#8, 0x2d#8, 0x31#8] = .err .invalidSymbol := by decide
theorem test_b24dec_V106_V108 : b24decReply toyConfig (List.replicate 112 0x6e#8) = .err .capacity ∧
    b24decReply toyConfig (List.replicate 113 0x2d#8) = .err .capacity := by decide +kernel
theorem test_b24decl_V20_V19 : b24declReply toyConfig 1#16 (digits [1, 0]) = .ok [0x18#8] ∧
    b24declReply toyConfig 2#16 (digits [1, 0]) = .err .lengthMismatch := by decide
theorem test_b24decl_V26_V30 : b24declReply toyConfig 2#16 (digits [0, 10, 15]) = .ok [0x00#8, 0xff#8] ∧
    b24declReply toyConfig 5#16 [0x31#8, 0x2d#8] = .err .invalidSymbol := by decide

/-! ## Nibble shift: V36, V37, V44, V45 -/

theorem test_nsmul_V36 : nsmulReply toyConfig [0x0a#8, 0xbc#8, 0xde#8] = .ok [0xab#8, 0xcd#8, 0xe0#8] := by decide
theorem test_nsmul_V37 : nsmulReply toyConfig [0xf0#8, 0x00#8] = .err .overflow ∧
    nsmulReply toyConfig [] = .ok [] := by decide
theorem test_nsdiv_V44 : nsdivReply toyConfig [0xab#8, 0xcd#8, 0xef#8] = .ok [0x0a#8, 0xbc#8, 0xde#8] := by decide
theorem test_nsdiv_V40_V45 : nsdivReply toyConfig [] = .ok [] ∧
    nsdivReply toyConfig [0xff#8, 0xff#8] = .ok [0x0f#8, 0xff#8] := by decide

/-! ## Prefix: V49, V52, V53, V56, V58, V59 -/

theorem test_pfxpack_V49_V50 : pfxpackReply 0x3ff#16 8#8 7#8 = .ok [0xff#8, 0xff#8] ∧
    pfxpackReply 0x128#16 3#8 1#8 = .ok [0x4a#8, 0x11#8] := by decide
theorem test_pfxpack_V52_V53 : pfxpackReply 0x128#16 0#8 0#8 = .ok [0x4a#8, 0x38#8] ∧
    pfxpackReply 0x128#16 9#8 8#8 = .ok [0x4a#8, 0x00#8] := by decide
theorem test_pfxvfy_V56 : pfxvfyReply 0x4a00#16 0x128#16 1#8 0#8 = .ok [] := by decide
theorem test_pfxvfy_V58 : pfxvfyReply 0x4a11#16 0x128#16 3#8 2#8 = .err .prefixMismatch := by decide
theorem test_pfxunpk_V59 : pfxunpkReply 0x4a11#16 = .ok [0x01#8, 0x28#8, 0x03#8, 0x01#8] ∧
    pfxunpkReply 0xffff#16 = .ok [0x03#8, 0xff#8, 0x08#8, 0x07#8] ∧
    pfxunpkReply 0x0000#16 = .ok [0x00#8, 0x00#8, 0x01#8, 0x00#8] := by decide

/-! ## Checksum: K1, K5, K2, K3 -/

theorem test_cksum_K1 : cksumReply toyConfig 0x4a00#16 fixtureSecret = .ok [0x4b#8, 0x21#8, 0xf0#8] := by decide +kernel
theorem test_cksum_K5 : cksumReply toyConfig 0x4a11#16 fixtureSecret = .ok [0xd3#8, 0x54#8, 0xd0#8] := by decide +kernel
theorem test_ckvfy_K2 : ckvfyReply toyConfig 0x4a00#16 fixtureSecret [0x4b#8, 0x21#8, 0xf0#8] = .ok [] := by
  decide +kernel
theorem test_ckvfy_K3 : ckvfyReply toyConfig 0x4a00#16 fixtureSecret [0x4b#8, 0x21#8, 0xf1#8] =
    .err .checksumMismatch := by decide +kernel

/-! ## Transport: V60, F3, V61, V66, V70, V73 -/

/-- The string of V60, as digits. -/
def stringV60 : Syms := digits
  [2, 13, 11, 6, 18, 8, 23, 16, 7, 2, 21, 9, 17, 11, 13, 6, 22, 15, 18, 17, 9, 17, 2, 2, 0, 22, 2, 17, 4, 21, 18, 3,
   7, 22, 16, 21, 19, 18, 0, 4, 1, 4, 6, 19, 18, 6, 11, 0, 6, 8, 22, 9, 8, 6, 13, 2, 8, 0, 9, 3, 0, 0, 22, 15]

/-- The string S70, as digits. -/
def stringS70 : Syms := digits
  [0, 8, 2, 10, 21, 18, 12, 1, 1, 8, 4, 20, 16, 8, 5, 17, 16, 17, 16, 8, 20, 2, 6, 16, 1, 5, 15, 17, 10, 1, 9, 15, 12,
   23, 12, 15, 21, 7, 19, 15, 16, 2, 10, 13, 12, 10, 20, 0, 4, 19, 9, 16, 5, 9, 6, 22, 19, 6, 17, 18, 13, 3, 22, 19, 4,
   23, 7, 21, 21]

theorem test_tkenc_V60 : tkencReply toyConfig 0x128#16 pin1234 fixtureSecret = .ok stringV60 := by decide +kernel
theorem test_tkenc_F3_F4 :
    tkencReply toyConfig 0x128#16 (List.replicate 256 0#8) (List.replicate 33 0#8) = .fault .keyLengthError ∧
    tkencReply toyConfig 0x128#16 (List.replicate 256 0#8) fixtureSecret = .err .capacity := by decide +kernel
theorem test_tkdec_V61_V62_V63 : tkdecReply toyConfig 0x128#16 pin1234 stringV60 = .ok fixtureSecret ∧
    tkdecReply toyConfig 0x128#16 [0x31#8, 0x32#8, 0x33#8, 0x35#8] stringV60 = .err .checksumMismatch ∧
    tkdecReply toyConfig 0x129#16 pin1234 stringV60 = .err .prefixMismatch := by decide +kernel
theorem test_tkdec_V66_V67 :
    tkdecReply toyConfig 0x128#16 pin1234 (0x30#8 :: stringV60.tail) = .err .lengthMismatch ∧
    tkdecReply toyConfig 0x128#16 pin1234 (0x6e#8 :: stringV60.tail) = .err .overflow := by decide +kernel
theorem test_tkdecsh_V70_V71_V75 : tkdecshReply toyConfig 0x128#16 3#8 1#8 pin1234 stringS70 = .ok fixtureSecret ∧
    tkdecshReply toyConfig 0x128#16 3#8 2#8 pin1234 stringS70 = .err .prefixMismatch ∧
    tkdecshReply toyConfig 0x128#16 1#8 0#8 pin1234 stringV60 = .err .lengthMismatch := by decide +kernel
theorem test_tkdecsh_V73 : tkdecshReply toyConfig 0x128#16 3#8 1#8 pin1234
    (b24encode toyConfig.params.alphabet
      (hex 40 0x014a11de954c03ba7128df964d04bb7229e097ae651cd38a41f8af661dd48b42f9b067d354d5abcd)) =
    .err .overflow := by decide +kernel

/-! ## Share combiner: V82, V80 -/

/-- The share `c` of spec/95_test_vectors.md section 2.6. -/
def shareC : Bytes := hex 32 0x030a11181f262d343b424950575e656c737a81888f969da4abb2b9c0c7ced5dc

theorem test_shxor_V82 : shxorReply [List.replicate 32 0xaa#8, List.replicate 32 0x55#8, shareC] =
    .ok (hex 32 0xfcf5eee7e0d9d2cbc4bdb6afa8a19a938c857e777069625b544d463f38312a23) := by decide +kernel
theorem test_shxor_V80 : shxorReply [fixtureSecret] = .ok fixtureSecret := by decide +kernel

/-! ## Steps: V93, V103, V104, V98, F1 -/

/-- An Idle block to which the host presents one frame. -/
def idleWith (f : Bytes) : State := { fcause := 0x00#8, inbox := [.frame f], responses := [] }

/-- A block that a malformed frame stopped, with the events to come. -/
def stopped (events : List HostEvent) : State :=
  { fcause := 0x81#8, inbox := events, responses := [⟨0x81#8, 0#16, []⟩] }

theorem test_step_V93 : step (idleWith [0x06#8, 0x01#8, 0x28#8, 0x03#8, 0x01#8]) =
    .next { fcause := 0x00#8, inbox := [], responses := [⟨0x00#8, 2#16, [0x4a#8, 0x11#8]⟩] } := rfl
theorem test_step_V98 : step (idleWith []) = .next (stopped []) := rfl
theorem test_step_F1 : step (idleWith ([0x0b#8, 0x01#8, 0x28#8, 0x00#8, 0x04#8, 0x31#8, 0x32#8, 0x33#8, 0x34#8, 0x00#8,
    0x1f#8] ++ List.replicate 31 0#8)) =
    .next { fcause := 0x80#8, inbox := [], responses := [⟨0x80#8, 0#16, []⟩] } := rfl
theorem test_step_V103 : step (stopped [.frame [0x08#8, 0x4a#8, 0x11#8]]) = .fault (.blockFaulted 0x81#8) := rfl
theorem test_step_V104 : step (stopped [.reset]) =
    .next { fcause := 0x00#8, inbox := [], responses := [⟨0x81#8, 0#16, []⟩] } := rfl

/-! ## A concrete input for the hypotheses of every statement, and of each of its clauses -/

theorem idle_reset : State.reset.fcause = 0x00#8 := rfl

theorem witness_DecodeInvertsEncode : Instr.wellFormed (.tkenc 0xffff#16 (run 65535) (run 65535)) = true ∧
    Instr.wellFormed (.shxor (List.replicate 8 (List.replicate 32 0#8))) = true := by
  refine ⟨by simp [Instr.wellFormedWith, fitsU16, length_run], by decide⟩

theorem witness_DecodeAcceptsOnlyEncodings : decode [0x08#8, 0x4a#8, 0x11#8] = .ok (.pfxunpk 0x4a11#16) := by decide

/-- One malformed frame of each kind (a) to (e). -/
theorem witness_MalformedFrameFaults : ∀ f ∈ [[], [0x0f#8], [0x01#8, 0x00#8, 0x02#8, 0xff#8],
    [0x08#8, 0x4a#8, 0x11#8, 0x00#8], [0x0e#8, 0x00#8], 0x0e#8 :: 0x09#8 :: List.replicate 288 0#8],
    (idleWith f).fcause = 0x00#8 ∧ (idleWith f).inbox = .frame f :: [] ∧ IsMalformed f := by decide +kernel

theorem witness_ReservedOpcodeFaults : ∀ op ∈ [0x00#8, 0x0f#8, 0xff#8], (op = 0x00#8 ∨ 0x0F ≤ op.toNat) ∧
    (idleWith [op, 0x00#8]).fcause = 0x00#8 ∧ (idleWith [op, 0x00#8]).inbox = .frame (op :: [0x00#8]) :: [] := by decide

/-- No share; as many as `MAXSHARES`; one more; and the 255 that the count field can express. -/
theorem witness_ShareCountBoundedByMaxShares : ∀ n ∈ [0, 8, 9, 255],
    (List.replicate n fixtureSecret).length ≤ 255 ∧ ∀ x ∈ List.replicate n fixtureSecret, x.length = 32 := by
  decide +kernel

/-- The frame of nine shares, which only the other configuration executes, a reset, and an Idle block. -/
theorem witness_ConfigurationIsAStepParameter :
    (idleWith (encode (.shxor (List.replicate 9 fixtureSecret)))).fcause = 0x00#8 ∧
    decodeWith manyShares (encode (.shxor (List.replicate 9 fixtureSecret))) =
      .ok (.shxor (List.replicate 9 fixtureSecret)) ∧
    (stopped [.reset]).inbox = .reset :: [] := by decide +kernel

/-- The default capacities meet what the round trip asks, and so does a configuration without bounds. -/
theorem witness_TransportRoundTripEveryConfig :
    ((∀ m, toyConfig.caps.maxPin = some m → pin1234.length ≤ m) ∧ ∀ m, toyConfig.caps.maxSyms = some m → 64 ≤ m) ∧
    (∀ m, unbounded.caps.maxPin = some m → pin1234.length ≤ m) ∧ (∀ m, unbounded.caps.maxSyms = some m → 64 ≤ m) ∧
    fixtureSecret.length = 32 := by
  refine ⟨⟨?_, ?_⟩, ?_, ?_, by decide⟩ <;> intro m h <;> cases h <;> decide

/-- Operands and results one over a capacity (112 digits 23 decode to 65 bytes, V106), and a configuration without
bounds, under which 65 bytes are executed. -/
theorem witness_CapacityOfEveryConfig :
    toyConfig.caps.maxBytes = some 64 ∧ 64 < (run 65).length ∧ toyConfig.caps.maxSyms = some 112 ∧
    112 < (run 113).length ∧ toyConfig.caps.maxPin = some 255 ∧ 255 < (run 256).length ∧
    (∃ r, b24decode toyConfig.params.alphabet (digits (List.replicate 112 23)) none = .ok r ∧ 64 < r.length) ∧
    unbounded.caps.maxBytes = none ∧ unbounded.caps.maxSyms = none ∧ unbounded.caps.maxPin = none ∧
    ∃ t, execWith unbounded (.nsdiv (run 65)) State.reset = .next t :=
  ⟨rfl, by decide, rfl, by decide, rfl, by decide +kernel,
    ⟨_, b24decode_map (by decide) none, by decide +kernel⟩, rfl, rfl, rfl, _, execWith_eq_next_iff.2 ⟨rfl, rfl⟩⟩

theorem witness_StepExecutesDecodedFrame :
    (idleWith [0x08#8, 0x4a#8, 0x11#8]).fcause = 0x00#8 ∧
    (idleWith [0x08#8, 0x4a#8, 0x11#8]).inbox = .frame [0x08#8, 0x4a#8, 0x11#8] :: [] ∧
    decode [0x08#8, 0x4a#8, 0x11#8] = .ok (.pfxunpk 0x4a11#16) := by decide

theorem witness_FaultedBlockTakesNoCommand : (stopped [.frame [0xff#8]]).fcause ≠ 0x00#8 ∧
    .reset ∉ (stopped [.frame [0xff#8]]).inbox ∧ .reset ∉ (stopped []).inbox := by decide

theorem witness_ResetClearsFcause : (stopped [.reset]).inbox = .reset :: [] := rfl

theorem witness_OnlyResetLeavesFaulted : (stopped [.frame [0xff#8], .reset]).fcause ≠ 0x00#8 ∧
    step (stopped [.frame [0xff#8], .reset]) =
      .next { fcause := 0x00#8, inbox := [], responses := [⟨0x81#8, 0#16, []⟩] } := ⟨by decide, rfl⟩

theorem witness_FramesWhileFaultedAreLost : (stopped [.frame [], .frame [0xff#8], .reset, .frame [0x08#8]]).fcause ≠ 0x00#8 ∧
    (stopped [.frame [], .frame [0xff#8], .reset, .frame [0x08#8]]).inbox =
      [[], [0xff#8]].map .frame ++ .reset :: [.frame [0x08#8]] := by decide

theorem witness_InvariantPreserved : (idleWith []).Inv ∧ step (idleWith []) = .next (stopped []) :=
  ⟨⟨by decide, by decide, fun h => absurd rfl h⟩, rfl⟩

/-- The invariant also holds of a stopped block. -/
theorem witness_InvariantPreserved_stopped : (stopped [.reset]).Inv :=
  ⟨by decide, by decide, fun _ => ⟨⟨0x81#8, 0#16, []⟩, rfl, rfl⟩⟩

theorem witness_FcauseWrittenOnlyByFaultsAndReset : step (idleWith []) = .next (stopped []) := rfl

theorem witness_IdleBlockWaits : State.reset.fcause = 0x00#8 ∧ State.reset.inbox = [] := ⟨rfl, rfl⟩

theorem witness_StepConsumesEventsInOrder : step State.reset = .next State.reset ∧
    step (idleWith []) = .next (stopped []) := ⟨rfl, rfl⟩

/-- Two commands, one of them a `TKENC` with a secret of 32 bytes. -/
theorem witness_RunAnswersEveryFrame : ∃ (is : List Instr) (s : State), is.length = 2 ∧
    (∀ i ∈ is, i.wellFormed = true) ∧
    (∀ netid pin secret, Instr.tkenc netid pin secret ∈ is → secret.length = 32) ∧
    s.fcause = 0x00#8 ∧ s.inbox = is.map (fun i => .frame (encode i)) := by
  refine ⟨[.pfxunpk 0x4a11#16, .tkenc 0x128#16 pin1234 fixtureSecret], ⟨0x00#8, _, []⟩, rfl, by decide +kernel, ?_, rfl, rfl⟩
  intro netid pin secret h
  simp only [List.mem_cons, List.not_mem_nil, or_false, reduceCtorEq, false_or, Instr.tkenc.injEq] at h
  rw [h.2.2]
  rfl

theorem witness_EveryCommandAnswersOnce : Instr.wellFormed (.cksum 0#16 fixtureSecret) = true ∧
    State.reset.fcause = 0x00#8 := by decide +kernel

theorem witness_exec_pfxunpk : exec (.pfxunpk 0x4a11#16) State.reset =
    .next (State.reset.respond 0x00#8 [0x01#8, 0x28#8, 0x03#8, 0x01#8]) := rfl

/-- Idle after the command, and Faulted after it. -/
theorem witness_CommandFrame : (∃ t, exec (.pfxunpk 0x4a11#16) State.reset = .next t ∧ t.fcause = 0x00#8) ∧
    ∃ t, exec (.tkenc 0#16 [] []) State.reset = .next t ∧ t.fcause ≠ 0x00#8 :=
  ⟨⟨_, rfl, rfl⟩, ⟨_, rfl, by decide⟩⟩

theorem witness_KeyLengthFault : (List.replicate 31 0#8).length ≠ 32 ∧ (List.replicate 33 0#8).length ≠ 32 ∧
    ([] : Bytes).length ≠ 32 ∧ exec (.pfxunpk 0x4a11#16) State.reset =
      .next (State.reset.respond 0x00#8 [0x01#8, 0x28#8, 0x03#8, 0x01#8]) ∧
    ∀ netid pin secret, Instr.pfxunpk 0x4a11#16 = .tkenc netid pin secret → secret.length = 32 :=
  ⟨by decide, by decide, by decide, rfl, by intro _ _ _ h; cases h⟩

theorem witness_ResponseDependsOnFrameOnly : ∃ t, (idleWith [0xff#8]).fcause = 0x00#8 ∧
    (idleWith [0xff#8]).inbox = .frame [0xff#8] :: [] ∧ step (idleWith [0xff#8]) = .next t :=
  ⟨_, rfl, rfl, rfl⟩

theorem witness_StatusesOfEachCommand : ∃ t, exec (.tkenc 0#16 [] []) State.reset = .next t := ⟨_, rfl⟩

theorem witness_ResultLengths : ∃ t r, Instr.wellFormed (.pfxunpk 0x4a11#16) = true ∧
    exec (.pfxunpk 0x4a11#16) State.reset = .next t ∧ t.responses = State.reset.responses ++ [r] ∧ r.status = 0x00#8 :=
  ⟨_, mkResponse 0x00#8 [0x01#8, 0x28#8, 0x03#8, 0x01#8], rfl, rfl, rfl, rfl⟩

/-- `B24ENC`, `NSMUL` and `NSDIV` on either side of `MAXBYTES`. -/
theorem witness_B24encResult : State.reset.fcause = 0x00#8 ∧ (run 64).length ≤ 64 ∧ 64 < (run 65).length := by decide

/-- The three clauses: 113 symbols; 112 symbols one of them a dash; 112 digits 23. -/
theorem witness_B24decResult : 112 < (run 113).length ∧
    ((0x2d#8 :: run 111).length ≤ 112 ∧ ∃ c ∈ 0x2d#8 :: run 111, c ∉ config.params.alphabet.codes) ∧
    (List.replicate 112 23).length ≤ 112 ∧ ∀ d ∈ List.replicate 112 23, d < 24 :=
  ⟨by decide, ⟨by decide, 0x2d#8, List.mem_cons_self, Alphabet.dash_not_mem _⟩, by decide, by decide⟩

/-- The same three clauses under `B24DECL`; of digits [1, 0] the natural length is 1 (V19, V20). -/
theorem witness_B24declResult : 112 < (run 113).length ∧
    ((0x2d#8 :: run 111).length ≤ 112 ∧ ∃ c ∈ 0x2d#8 :: run 111, c ∉ config.params.alphabet.codes) ∧
    [1, 0].length ≤ 112 ∧ ∀ d ∈ [1, 0], d < 24 :=
  ⟨by decide, ⟨by decide, 0x2d#8, List.mem_cons_self, Alphabet.dash_not_mem _⟩, by decide, by decide⟩

theorem witness_Base24RoundTrip : State.reset.fcause = 0x00#8 ∧ (run 64).length ≤ 64 := by decide

theorem witness_Base24DecodeThenEncode :
    b24decode toyConfig.params.alphabet (digits [0, 10, 15]) none = .ok [0x00#8, 0xff#8] ∧
    exec (.b24dec ([1, 0].map (symOf config.params.alphabet))) State.reset =
      .next (State.reset.respond 0x00#8 [0x18#8]) := by
  refine ⟨by decide, ?_⟩
  rw [exec, execB24dec, b24decReply, b24decode_map (by decide)]
  rfl

/-- A command that emits a string, and a string with a dash and a PIN at their capacities. -/
theorem witness_DashIsNeverASymbol :
    (∃ t r, exec (.b24enc [0x01#8]) State.reset = .next t ∧ t.responses = State.reset.responses ++ [r]) ∧
    (0x2d#8 :: run 111).length ≤ 112 ∧ (run 255).length ≤ 255 ∧ 0x2D#8 ∈ 0x2d#8 :: run 111 :=
  ⟨⟨_, _, rfl, rfl⟩, by decide +kernel, by decide +kernel, List.mem_cons_self⟩

/-- `NSMUL`: 65 bytes; 64 bytes with a non-zero top nibble; 64 bytes and no byte with a zero one. -/
theorem witness_NsmulResult : 64 < (run 65).length ∧
    ((0x10#8 :: run 63).length ≤ 64 ∧ 0x10 ≤ ((0x10#8 :: run 63).getD 0 0#8).toNat) ∧
    ((0x0f#8 :: run 63).length ≤ 64 ∧ ((0x0f#8 :: run 63).getD 0 0#8).toNat < 0x10) ∧
    ([] : Bytes).length ≤ 64 ∧ (([] : Bytes).getD 0 0#8).toNat < 0x10 := by decide

theorem witness_NsdivResult : 64 < (run 65).length ∧ (run 64).length ≤ 64 ∧ State.reset.fcause = 0x00#8 := by decide

theorem witness_ShiftLaws : shiftLeft4 [0x0a#8, 0xbc#8, 0xde#8] = .ok [0xab#8, 0xcd#8, 0xe0#8] := by decide

/-- `PFXPACK`, `PFXVFY`, `PFXUNPK` ask only for an Idle block. -/
theorem witness_PfxpackResult : State.reset.fcause = 0x00#8 := rfl
theorem witness_PfxvfyResult : State.reset.fcause = 0x00#8 := rfl
theorem witness_PfxunpkResult : State.reset.fcause = 0x00#8 := rfl

theorem witness_PackLaws : pack 1023 8 7 = pack 1023 8 7 ∧ 1023 < 1024 ∧ 1 ≤ 8 ∧ 8 ≤ 8 ∧ 7 ≤ 7 ∧
    unpackFields 0xffff#16 = u16Bytes 0x3ff#16 ++ [8#8, 7#8] := by decide

theorem witness_CksumResult : fixtureSecret.length = 32 ∧ State.reset.fcause = 0x00#8 := by decide

/-- The second clause: an embedded checksum with a non-zero last nibble. -/
theorem witness_CkvfyResult : fixtureSecret.length = 32 ∧ [0x4b#8, 0x21#8, 0xf1#8].length = 3 ∧
    [0x4b#8, 0x21#8, 0xf1#8].getD 2 0#8 &&& 0x0F#8 ≠ 0#8 := by decide

/-- The three clauses of `TKENC`: 31 bytes; 32 with a PIN of 256; 32 with a PIN of 255. -/
theorem witness_TkencResult : (run 31).length ≠ 32 ∧ (fixtureSecret.length = 32 ∧ 255 < (run 256).length) ∧
    (run 255).length ≤ 255 := by decide +kernel

/-- The three clauses of `TKDEC`: over a capacity; an absent symbol; a digit list (V60's). -/
theorem witness_TkdecResult : (255 < (run 256).length ∨ 112 < (run 113).length) ∧
    ((run 255).length ≤ 255 ∧ (0x2d#8 :: run 111).length ≤ 112 ∧
      ∃ c ∈ 0x2d#8 :: run 111, c ∉ config.params.alphabet.codes) ∧
    (List.replicate 64 23).length ≤ 112 ∧ ∀ d ∈ List.replicate 64 23, d < 24 :=
  ⟨by decide +kernel, ⟨by decide +kernel, by decide, 0x2d#8, List.mem_cons_self, Alphabet.dash_not_mem _⟩, by decide, by decide⟩

theorem witness_TransportRoundTrip : fixtureSecret.length = 32 ∧ pin1234.length ≤ 255 ∧ State.reset.fcause = 0x00#8 := by
  decide

theorem witness_NetworkIsolation : fixtureSecret.length = 32 ∧ pin1234.length ≤ 255 ∧
    (0x128#16).toNat % 1024 ≠ (0x129#16).toNat % 1024 := by decide

/-- The same three clauses of `TKDECSH`. -/
theorem witness_TkdecshResult : (255 < (run 256).length ∨ 112 < (run 113).length) ∧
    ((run 255).length ≤ 255 ∧ (0x2d#8 :: run 111).length ≤ 112 ∧
      ∃ c ∈ 0x2d#8 :: run 111, c ∉ config.params.alphabet.codes) ∧
    (List.replicate 69 23).length ≤ 112 ∧ ∀ d ∈ List.replicate 69 23, d < 24 :=
  ⟨by decide +kernel, ⟨by decide +kernel, by decide, 0x2d#8, List.mem_cons_self, Alphabet.dash_not_mem _⟩, by decide, by decide⟩

theorem witness_TkdecshOpensShare : fixtureSecret.length = 32 ∧ pin1234.length ≤ 255 ∧ State.reset.fcause = 0x00#8 := by
  decide

/-- One share and eight. -/
theorem witness_ShxorResult : (1 ≤ [fixtureSecret].length ∧ [fixtureSecret].length ≤ 8 ∧ ∀ x ∈ [fixtureSecret], x.length = 32) ∧
    1 ≤ (List.replicate 8 fixtureSecret).length ∧ (List.replicate 8 fixtureSecret).length ≤ 8 ∧
    ∀ x ∈ List.replicate 8 fixtureSecret, x.length = 32 := by decide +kernel

theorem witness_ShxorLaws : [run 32, shareC].Perm [shareC, run 32] ∧ (∀ x ∈ [run 32, shareC], x.length = 32) ∧
    1 ≤ [run 32].length ∧ [run 32].length + [shareC].length ≤ 8 ∧ (run 32).length = 32 :=
  ⟨List.Perm.swap _ _ _, by decide +kernel, by decide, by decide, by decide⟩

end Sys2Proof.Tests
end

/-! ### What the decoder accepts (R60 to R63) -/

namespace Sys2Proof

/-- A `do` block answers a value exactly when each of its parts does. -/
theorem except_bind_eq_ok_iff {ε α β : Type} {x : Except ε α} {f : α → Except ε β} {b : β} :
    (x >>= f) = .ok b ↔ ∃ a, x = .ok a ∧ f a = .ok b := by
  cases x <;> simp [bind, Except.bind]

/-- A body that the decoder accepts is the body of a well-formed command of that opcode. -/
theorem decodeBody_eq_ok {c : Config} {op : Byte} {f : Bytes} {i : Instr} (h : decodeBody c op f = .ok i) :
    i.wellFormedWith c = true ∧ i.opcode = op ∧ encodeBody i = f := by
  unfold decodeBody at h
  split at h <;> simp only [except_bind_eq_ok_iff, Prod.exists, readU8_eq_ok_iff, readU16_eq_ok_iff,
    readRun_eq_ok_iff, readMeasured_eq_ok_iff, endFrame_eq_ok_iff, reduceCtorEq] at h
  case h_1 hop | h_2 hop | h_4 hop | h_5 hop =>
    obtain ⟨d, _, ⟨hd, rfl⟩, rfl, rfl⟩ := h
    exact ⟨by simp [Instr.wellFormedWith, fitsU16, hd], BitVec.eq_of_toNat_eq hop.symm, by simp [encodeBody]⟩
  case h_3 hop =>
    obtain ⟨e, _, rfl, s, _, ⟨hs, rfl⟩, rfl, rfl⟩ := h
    exact ⟨by simp [Instr.wellFormedWith, fitsU16, hs], BitVec.eq_of_toNat_eq hop.symm, by simp [encodeBody]⟩
  case h_6 hop =>
    obtain ⟨n, _, rfl, k, _, rfl, x, _, rfl, rfl, rfl⟩ := h
    exact ⟨rfl, BitVec.eq_of_toNat_eq hop.symm, rfl⟩
  case h_7 hop =>
    obtain ⟨a, _, rfl, n, _, rfl, k, _, rfl, x, _, rfl, rfl, rfl⟩ := h
    exact ⟨rfl, BitVec.eq_of_toNat_eq hop.symm, rfl⟩
  case h_8 hop =>
    obtain ⟨w, _, rfl, rfl, rfl⟩ := h
    exact ⟨rfl, BitVec.eq_of_toNat_eq hop.symm, rfl⟩
  case h_9 hop =>
    obtain ⟨p, _, rfl, s, _, ⟨hs, rfl⟩, rfl, rfl⟩ := h
    exact ⟨by simp [Instr.wellFormedWith, hs], BitVec.eq_of_toNat_eq hop.symm, by simp [encodeBody]⟩
  case h_10 hop =>
    obtain ⟨p, _, rfl, s, _, ⟨hs, rfl⟩, e, _, ⟨he, rfl⟩, rfl, rfl⟩ := h
    exact ⟨by simp [Instr.wellFormedWith, hs, he], BitVec.eq_of_toNat_eq hop.symm, by simp [encodeBody]⟩
  case h_11 hop | h_12 hop =>
    obtain ⟨n, _, rfl, p, _, ⟨hp, rfl⟩, s, _, ⟨hs, rfl⟩, rfl, rfl⟩ := h
    exact ⟨by simp [Instr.wellFormedWith, fitsU16, hp, hs], BitVec.eq_of_toNat_eq hop.symm, by simp [encodeBody]⟩
  case h_13 hop =>
    obtain ⟨n, _, rfl, k, _, rfl, x, _, rfl, p, _, ⟨hp, rfl⟩, s, _, ⟨hs, rfl⟩, rfl, rfl⟩ := h
    exact ⟨by simp [Instr.wellFormedWith, fitsU16, hp, hs], BitVec.eq_of_toNat_eq hop.symm, by simp [encodeBody]⟩
  case h_14 hop =>
    obtain ⟨n, _, rfl, h⟩ := h
    split at h
    next => cases h
    next hcount =>
      simp only [except_bind_eq_ok_iff, Prod.exists, readShares_eq_ok_iff, endFrame_eq_ok_iff] at h
      obtain ⟨ss, _, ⟨hlen, hall, rfl⟩, rfl, rfl⟩ := h
      refine ⟨?_, BitVec.eq_of_toNat_eq hop.symm, by simp [encodeBody, hlen]⟩
      simp only [Instr.wellFormedWith, Bool.and_eq_true, decide_eq_true_eq, List.all_eq_true, beq_iff_eq]
      exact ⟨by omega, hall⟩

/-- A frame that the decoder accepts is the frame of a well-formed command, under every configuration. -/
theorem decodeWith_eq_ok {c : Config} {f : Bytes} {i : Instr} (h : decodeWith c f = .ok i) :
    i.wellFormedWith c = true ∧ encode i = f := by
  cases f with
  | nil => cases h
  | cons op body =>
    obtain ⟨hwf, rfl, rfl⟩ := decodeBody_eq_ok h
    exact ⟨hwf, rfl⟩

end Sys2Proof

/-! ### The length of a result (R45, R65) -/

namespace Sys2Proof.Machine

/-- A unit function's outcome is a result exactly when it is `Ok` (R13). -/
theorem ofUnit_eq_ok_iff {e : Except ErrKind Bytes} {d : Bytes} : Reply.ofUnit e = .ok d ↔ e = .ok d := by
  cases e <;> simp [Reply.ofUnit]

/-- A result that passes a capacity test was one before it (R69). -/
theorem guardCapacity_eq_ok_iff {b : Bool} {r : Reply} {d : Bytes} :
    guardCapacity b r = .ok d ↔ b = false ∧ r = .ok d := by
  cases b <;> simp

/-- A result that passes the result test is within the capacity (R69). -/
theorem guardResult_eq_ok_iff {cap : Option Nat} {r : Reply} {d : Bytes} :
    guardResult cap r = .ok d ↔ r = .ok d ∧ exceeds d.length cap = false := by
  rcases guardResult_cases cap r with ⟨d', rfl, hover, hr⟩ | ⟨hr, hfits⟩ <;> rw [hr]
  · simp only [reduceCtorEq, false_iff, not_and, Bool.not_eq_false]
    rintro ⟨⟩
    exact hover
  · exact ⟨fun h => ⟨h, hfits d h⟩, fun h => h.1⟩

theorem exceeds_some_eq_false {n cap : Nat} : exceeds n (some cap) = false ↔ n ≤ cap := by simp

/-- Decoding with a length answers that length (R102). -/
theorem length_of_b24decode {a : Alphabet} {s : Syms} {n : Nat} {r : Bytes}
    (h : b24decode a s (some n) = .ok r) : r.length = n := by
  rcases absent_or_digits a s with habs | ⟨ds, hds, rfl⟩
  · cases (b24decode_of_absent habs _).symm.trans h
  · rw [b24decode_map hds] at h
    simp only at h
    split at h
    next hlen => rwa [← Except.ok.inj h]
    next => cases h

/-- The shift keeps the width (R120). -/
theorem length_of_shiftLeft4 {b r : Bytes} (h : shiftLeft4 b = .ok r) : r.length = b.length := by
  rw [← shiftRight4_shiftLeft4 h, length_shiftRight4]

theorem length_of_decryptSingle {p : OpenParams} {str : Syms} {pin out : Bytes} {n : Nat}
    (h : decryptSingle p str pin n = .ok out) : out.length = 32 := by
  simp only [decryptSingle, except_bind_eq_ok_iff] at h
  obtain ⟨_, -, _, -, h⟩ := h
  exact length_of_openPayload h

theorem length_of_decryptShare {c : Config} {str : Syms} {pin out : Bytes} {n k x : Nat}
    (h : decryptShare c str pin n k x = .ok out) : out.length = 32 := by
  simp only [decryptShare, except_bind_eq_ok_iff] at h
  obtain ⟨_, -, _, -, _, -, h⟩ := h
  exact length_of_openPayload h

/-- Every result of a well-formed command has a length that R45 and R65 allow. -/
theorem resultLengthOk_of_replyOf {i : Instr} {d : Bytes} (hwf : i.wellFormed = true) (h : replyOf i = .ok d) :
    resultLengthOk i d.length := by
  cases i with
  | b24enc data =>
    obtain ⟨-, h⟩ := guardCapacity_eq_ok_iff.1 h
    exact exceeds_some_eq_false.1 (guardResult_eq_ok_iff.1 h).2
  | b24dec str =>
    obtain ⟨-, h⟩ := guardCapacity_eq_ok_iff.1 h
    exact exceeds_some_eq_false.1 (guardResult_eq_ok_iff.1 h).2
  | b24decl explen str =>
    obtain ⟨-, h⟩ := guardCapacity_eq_ok_iff.1 h
    obtain ⟨h, hcap⟩ := guardResult_eq_ok_iff.1 h
    exact ⟨length_of_b24decode (ofUnit_eq_ok_iff.1 h), exceeds_some_eq_false.1 hcap⟩
  | nsmul data =>
    obtain ⟨-, h⟩ := guardCapacity_eq_ok_iff.1 h
    exact length_of_shiftLeft4 (ofUnit_eq_ok_iff.1 h)
  | nsdiv data =>
    obtain ⟨-, h⟩ := guardCapacity_eq_ok_iff.1 h
    cases h
    exact length_shiftRight4 data
  | pfxpack netid count index => cases h; rfl
  | pfxvfy actual netid count index =>
    simp only [replyWith, pfxvfyReply] at h
    split at h <;> cases h
    rfl
  | pfxunpk word => cases h; rfl
  | cksum pfx secret => cases h; rfl
  | ckvfy pfx secret embedded =>
    simp only [replyWith, ckvfyReply] at h
    split at h <;> cases h
    rfl
  | tkenc netid pin secret =>
    simp only [replyWith, tkencReply] at h
    split at h
    next => cases h
    next =>
      obtain ⟨-, h⟩ := guardCapacity_eq_ok_iff.1 h
      cases h
      exact length_encryptSingle_le _ _ _ _
  | tkdec netid pin str =>
    obtain ⟨-, h⟩ := guardCapacity_eq_ok_iff.1 h
    exact length_of_decryptSingle (ofUnit_eq_ok_iff.1 h)
  | tkdecsh netid count index pin str =>
    obtain ⟨-, h⟩ := guardCapacity_eq_ok_iff.1 h
    exact length_of_decryptShare (ofUnit_eq_ok_iff.1 h)
  | shxor shares =>
    cases h
    simp only [Instr.wellFormedWith, Bool.and_eq_true, decide_eq_true_eq, List.all_eq_true, beq_iff_eq] at hwf
    obtain ⟨⟨hone, -⟩, hall⟩ := hwf
    exact (combineShares_spec hone hall).1

/-- A length that R45 and R65 allow fits the `u16` length field of the response (R64). -/
theorem resultLengthOk_lt {i : Instr} {n : Nat} (hwf : i.wellFormed = true) (h : resultLengthOk i n) : n < 65536 := by
  cases i <;> simp only [resultLengthOk] at h
  case nsmul | nsdiv =>
    simp only [Instr.wellFormedWith, fitsU16, decide_eq_true_eq] at hwf
    omega
  all_goals omega

/-! ### The invariant (R24, R64, R252) -/

/-- No other code is ever produced (R240). -/
theorem legalStatus_of_reply (r : Reply) : LegalStatus r.status := by
  cases r with
  | ok d => exact List.mem_cons_self
  | err k => cases k <;> decide
  | fault c => cases c <;> decide

/-- The codes that R253 gives the causes. -/
theorem faultCode_cases (c : FaultCause) : c.code = 0x80#8 ∨ c.code = 0x81#8 := by
  cases c
  · exact .inl rfl
  · exact .inr rfl

/-- A reply without data unless it is `OK` (R64). -/
theorem rdata_eq_nil_of_status_ne_zero {r : Reply} (h : r.status ≠ 0x00#8) : r.rdata = [] := by
  cases r with
  | ok d => exact absurd rfl h
  | err k => rfl
  | fault c => rfl

/-- The data of a well-formed command's reply fits the response's length field. -/
theorem length_rdata_replyOf_lt {i : Instr} (hwf : i.wellFormed = true) : (replyOf i).rdata.length < 65536 := by
  cases h : replyOf i with
  | ok d => exact resultLengthOk_lt hwf (resultLengthOk_of_replyOf hwf h)
  | err k => exact Nat.zero_lt_succ _
  | fault c => exact Nat.zero_lt_succ _

/-- So does the data of a frame's reply: what decodes is well-formed, and a fault has no data. -/
theorem length_rdata_frameReply_lt (f : Bytes) : (frameReply f).rdata.length < 65536 := by
  unfold frameReply frameReplyWith
  split
  next => exact Nat.zero_lt_succ _
  next i hi => exact length_rdata_replyOf_lt (decodeWith_eq_ok hi).1

/-- The response of a reply whose data fits the length field is well-formed (R64). -/
theorem mkResponse_wellFormed {r : Reply} (h : r.rdata.length < 65536) :
    (mkResponse r.status r.rdata).WellFormed := by
  refine ⟨legalStatus_of_reply r, ?_, rdata_eq_nil_of_status_ne_zero⟩
  rw [mkResponse_rlen, mkResponse_rdata, BitVec.toNat_ofNat, Nat.mod_eq_of_lt h]

/-- An Idle block that delivers a reply keeps the invariant: a fault writes the code that it answers. -/
theorem inv_deliver {s : State} {r : Reply} (hs : s.Inv) (hidle : s.Idle) (hr : r.rdata.length < 65536) :
    (s.deliver r).Inv where
  fcause_legal := by
    cases r with
    | ok d => exact hs.fcause_legal
    | err k => exact hs.fcause_legal
    | fault c => exact .inr (faultCode_cases c)
  responses_wf := by
    intro q hq
    rw [deliver_responses, List.mem_append, List.mem_singleton] at hq
    rcases hq with hq | rfl
    · exact hs.responses_wf q hq
    · exact mkResponse_wellFormed hr
  faulted_last := by
    intro hfault
    cases r with
    | ok d => exact absurd hidle hfault
    | err k => exact absurd hidle hfault
    | fault c => exact ⟨mkResponse c.code [], by simp, rfl⟩

/-- The invariant does not speak of the host's events. -/
theorem inv_of_inbox {s : State} (hs : s.Inv) (rest : List HostEvent) : { s with inbox := rest }.Inv :=
  ⟨hs.fcause_legal, hs.responses_wf, hs.faulted_last⟩

/-- A reset, and the events it takes, keep the invariant. -/
theorem inv_of_reset {s : State} (hs : s.Inv) (rest : List HostEvent) :
    { s with inbox := rest, fcause := 0x00#8 }.Inv :=
  ⟨.inl rfl, hs.responses_wf, fun h => absurd rfl h⟩

/-- Settles O13: a step waits, takes a reset or delivers a reply, and each keeps the invariant. -/
theorem invariantPreserved : Obligations.InvariantPreserved := by
  intro s t hs hstep
  rcases step_cases hstep with ⟨-, -, rfl⟩ | ⟨pre, rest, -, -, -, rfl⟩ | ⟨hidle, f, rest, -, rfl⟩
  · exact hs
  · exact inv_of_reset hs rest
  · exact inv_deliver (inv_of_inbox hs rest) hidle (length_rdata_frameReply_lt f)

/-! ### FCAUSE, the answer to a frame, and the configuration (R24, R27, R29) -/

/-- A reply leaves `FCAUSE`, or is a fault whose code is written there and is the response (R70, R252). -/
theorem deliver_fcause_cases (s : State) (r : Reply) :
    (s.deliver r).fcause = s.fcause ∨
    ∃ c : FaultCause, (s.deliver r).fcause = c.code ∧
      (s.deliver r).responses = s.responses ++ [⟨c.code, 0#16, []⟩] := by
  cases r with
  | ok d => exact .inl rfl
  | err k => exact .inl rfl
  | fault c => exact .inr ⟨c, rfl, rfl⟩

/-- Settles O14, by what one step can do. -/
theorem fcauseWrittenOnlyByFaultsAndReset : Obligations.FcauseWrittenOnlyByFaultsAndReset := by
  intro s t hstep
  rcases step_cases hstep with ⟨-, -, rfl⟩ | ⟨pre, rest, hinbox, -, -, rfl⟩ | ⟨hidle, f, rest, -, rfl⟩
  · exact .inl rfl
  · exact .inr (.inr ⟨rfl, rfl, pre, hinbox⟩)
  · rcases deliver_fcause_cases { s with inbox := rest } (frameReply f) with hkept | ⟨c, hcode, hresp⟩
    · exact .inl hkept
    · refine .inr (.inl ⟨hidle, ?_, ?_⟩)
      · rw [hcode]
        exact faultCode_cases c
      · rw [hresp, hcode]

/-- An Idle block delivers the frame's reply (R70). -/
theorem step_of_frame {s : State} {f : Bytes} {rest : List HostEvent} (hidle : s.Idle)
    (hinbox : s.inbox = .frame f :: rest) : step s = .next ({ s with inbox := rest }.deliver (frameReply f)) := by
  rw [step_eq_stepWith, stepWith, stepBy_of_frame hidle hinbox, runFrame_eq_complete]
  exact complete_of_idle (s := { s with inbox := rest }) hidle _

/-- From one `FCAUSE`, a reply leaves one `FCAUSE`, whatever else the states hold. -/
theorem deliver_fcause_congr {s₁ s₂ : State} (h : s₁.fcause = s₂.fcause) (r : Reply) :
    (s₁.deliver r).fcause = (s₂.deliver r).fcause := by
  rw [deliver_fcause, deliver_fcause, h]

/-- Settles O21: both blocks deliver the one reply of the frame. -/
theorem responseDependsOnFrameOnly : Obligations.ResponseDependsOnFrameOnly := by
  intro f s₁ s₂ t₁ rest₁ rest₂ hidle₁ hidle₂ hinbox₁ hinbox₂ hstep
  obtain rfl := Host.Outcome.next.inj ((step_of_frame hidle₁ hinbox₁).symm.trans hstep)
  exact ⟨_, _, step_of_frame hidle₂ hinbox₂, deliver_responses _ _, deliver_responses _ _,
    deliver_fcause_congr (s₁ := { s₂ with inbox := rest₂ }) (s₂ := { s₁ with inbox := rest₁ })
      (hidle₂.trans hidle₁.symm) _⟩

/-- Settles O11: the field is written in the reset state (R28). -/
theorem resetStateIsIdle : Obligations.ResetStateIsIdle := rfl

/-- An Idle block executes the command its configuration decodes (R70). -/
theorem stepWith_of_decodeWith {c : Config} {s : State} {f : Bytes} {rest : List HostEvent} {i : Instr}
    (hidle : s.Idle) (hinbox : s.inbox = .frame f :: rest) (hdec : decodeWith c f = .ok i) :
    stepWith c s = execWith c i { s with inbox := rest } := by
  rw [stepWith, stepBy_of_frame hidle hinbox, runFrame, hdec]

/-- A reset has one effect, Idle or Faulted, under every configuration (R280). -/
theorem stepWith_of_reset (c : Config) {s : State} {rest : List HostEvent} (hinbox : s.inbox = .reset :: rest) :
    stepWith c s = .next { fcause := 0x00#8, inbox := rest, responses := s.responses } := by
  by_cases hidle : s.Idle
  · rw [stepWith, stepBy, if_pos hidle, runIdle, hinbox]
    rfl
  · rw [stepWith, stepBy, if_neg hidle, runFaulted, hinbox]
    rfl

/-- Settles O48, from the laws of `exec` and `step` and one lemma for each event. -/
theorem configurationIsAStepParameter : Obligations.ConfigurationIsAStepParameter := by
  refine ⟨step_eq_stepWith, exec_eq_execWith, fun c => ⟨?_, ?_, ?_⟩⟩
  · exact fun s f rest i => stepWith_of_decodeWith
  · exact fun s rest => stepWith_of_reset c
  · exact fun i s hidle =>
      ⟨_, _, execWith_eq_next_iff.2 ⟨hidle, rfl⟩, deliver_inbox _ _, deliver_responses _ _⟩

end Sys2Proof.Machine

/-! ### The decoder on encoded frames (R60 to R63) -/

namespace Sys2Proof
open Machine

@[simp] theorem ok_bind {ε α β : Type} (a : α) (f : α → Except ε β) : (Except.ok a >>= f) = f a := rfl

@[simp] theorem endFrame_nil (i : Instr) : endFrame i [] = .ok i := rfl

@[simp] theorem readU16_u16Bytes_nil (w : U16) : readU16 (u16Bytes w) = .ok (w, []) := readU16_u16Bytes w []

/-- A run of fixed length as the last field. -/
theorem readRun_self {b : Bytes} {k : Nat} (h : b.length = k) : readRun k b = .ok (b, []) := by
  simpa using readRun_append h []

/-- A measured run as the last field. -/
theorem readMeasured_measured_nil {b : Bytes} (h : b.length < 65536) : readMeasured (measured b) = .ok (b, []) := by
  simpa using readMeasured_measured h []

/-- The decoder answers every command that its configuration can express (R60 to R63, R71). -/
theorem decodeWith_encode {c : Config} {i : Instr} (hwf : i.wellFormedWith c = true) :
    decodeWith c (encode i) = .ok i := by
  show decodeBody c i.opcode (encodeBody i) = .ok i
  cases i with simp only [Instr.wellFormedWith, fitsU16, Bool.and_eq_true, decide_eq_true_eq, beq_iff_eq,
    List.all_eq_true] at hwf
  | b24enc | b24dec | b24decl | nsmul | nsdiv =>
    simp [Instr.opcode, encodeBody, decodeBody, readMeasured_measured_nil hwf]
  | pfxpack | pfxvfy | pfxunpk => simp [Instr.opcode, encodeBody, decodeBody]
  | cksum => simp [Instr.opcode, encodeBody, decodeBody, readRun_self hwf]
  | ckvfy =>
    obtain ⟨hsecret, hembedded⟩ := hwf
    simp [Instr.opcode, encodeBody, decodeBody, readRun_append hsecret, readRun_self hembedded]
  | tkenc | tkdec | tkdecsh =>
    obtain ⟨hpin, hlast⟩ := hwf
    simp [Instr.opcode, encodeBody, decodeBody, readMeasured_measured hpin, readMeasured_measured_nil hlast]
  | shxor shares =>
    obtain ⟨⟨hone, hmax⟩, hall⟩ := hwf
    have hcount : (BitVec.ofNat 8 shares.length).toNat = shares.length := by
      have := c.caps.maxShares_le
      rw [BitVec.toNat_ofNat]
      omega
    have hshares : readShares shares.length shares.flatten = .ok (shares, []) := by
      simpa using readShares_flatten shares hall []
    have hne : shares ≠ [] := List.ne_nil_of_length_pos hone
    simp [Instr.opcode, encodeBody, decodeBody, hcount, hne, hmax, hshares, -BitVec.toNat_ofNat]

end Sys2Proof

/-! ### The response of a command (R45, R46, R49, R291) -/

namespace Sys2Proof.Machine

/-- The response that a command gets (R46, R64). -/
def responseOf (i : Instr) : Response := mkResponse (replyOf i).status (replyOf i).rdata

/-- A command that an Idle block executes appends its response. -/
theorem deliver_replyOf_responses (s : State) (i : Instr) :
    (s.deliver (replyOf i)).responses = s.responses ++ [responseOf i] := deliver_responses s (replyOf i)

/-- Settles O23: the response is the command's own, and a status `OK` is the status of a result. -/
theorem resultLengths : Obligations.ResultLengths := by
  intro i s t r hwf hexec hresp hstatus
  obtain ⟨-, rfl⟩ := exec_eq_next_iff.1 hexec
  rw [deliver_replyOf_responses, List.append_cancel_left_eq, List.singleton_inj] at hresp
  obtain rfl := hresp
  obtain ⟨d, hd⟩ := (status_eq_zero_iff (replyOf i)).1 hstatus
  have hdata : (responseOf i).rdata = d := by rw [responseOf, hd]; rfl
  rw [hdata]
  exact resultLengthOk_of_replyOf hwf hd

/-- A command leaves `FCAUSE`, or is a `TKENC` whose secret has another length than 32 and that takes the fault
(R46, R199). -/
theorem deliver_replyOf_fcause_cases (s : State) (i : Instr) :
    (s.deliver (replyOf i)).fcause = s.fcause ∨
    ∃ netid pin secret, i = .tkenc netid pin secret ∧ secret.length ≠ 32 ∧
      (s.deliver (replyOf i)).fcause = 0x80#8 ∧ responseOf i = ⟨0x80#8, 0#16, []⟩ := by
  unfold responseOf
  cases h : replyOf i with
  | ok d => exact .inl rfl
  | err k => exact .inl rfl
  | fault cause =>
    obtain ⟨netid, pin, secret, hi, hlen, rfl⟩ := replyOf_eq_fault h
    exact .inr ⟨netid, pin, secret, hi, hlen, rfl, rfl⟩

/-- Settles O19: the command delivers its one reply, to the block before it and to the block after it. -/
theorem commandFrame : Obligations.CommandFrame := by
  intro i s t hexec
  obtain ⟨hidle, rfl⟩ := exec_eq_next_iff.1 hexec
  refine ⟨deliver_inbox _ _, responseOf i, deliver_replyOf_responses s i, deliver_replyOf_fcause_cases s i, ?_⟩
  intro hidle'
  exact ⟨_, exec_eq_next_iff.2 ⟨hidle', rfl⟩, deliver_replyOf_responses _ i,
    deliver_fcause_congr (hidle'.trans hidle.symm) _⟩

/-! ### A run over frames (R49, R291) -/

/-- A command that is no `TKENC` with a secret of another length than 32 leaves an Idle block Idle (R199). -/
theorem deliver_replyOf_idle {s : State} {i : Instr} (hidle : s.Idle)
    (hkey : ∀ netid pin secret, i = .tkenc netid pin secret → secret.length = 32) :
    (s.deliver (replyOf i)).Idle := by
  rcases deliver_replyOf_fcause_cases s i with hkept | ⟨netid, pin, secret, hi, hlen, -⟩
  · exact hkept.trans hidle
  · exact absurd (hkey netid pin secret hi) hlen

/-- The step of an Idle block whose next event is the frame of a well-formed command (R70). -/
theorem step_of_encode {s : State} {i : Instr} {rest : List HostEvent} (hwf : i.wellFormed = true)
    (hidle : s.Idle) (hinbox : s.inbox = .frame (encode i) :: rest) :
    step s = .next ({ s with inbox := rest }.deliver (replyOf i)) := by
  rw [step_of_frame hidle hinbox, frameReply, frameReplyWith, decodeWith_encode hwf]

/-- A run goes on from the state of its first step. -/
theorem run_succ_of_step {M : Host.Core} {s t : M.State} (h : M.step s = .next t) (k : Nat) :
    M.run (k + 1) s = M.run k t := by
  rw [Host.Core.run, h]

/-- The run over the frames of commands that raise no fault: all events are taken and every response is there, in
order. -/
theorem run_of_frames {is : List Instr} {s : State} (hwf : ∀ i ∈ is, i.wellFormed = true)
    (hkey : ∀ netid pin secret, Instr.tkenc netid pin secret ∈ is → secret.length = 32) (hidle : s.Idle)
    (hinbox : s.inbox = is.map (fun i => .frame (encode i))) :
    ∃ t, core.run is.length s = .next t ∧ t.GoodEnd ∧ t.responses = s.responses ++ is.map responseOf := by
  induction is generalizing s with
  | nil => exact ⟨s, rfl, ⟨hidle, hinbox⟩, (List.append_nil _).symm⟩
  | cons i is ih =>
    have hstep := step_of_encode (hwf i List.mem_cons_self) hidle hinbox
    have hidle' := deliver_replyOf_idle (s := { s with inbox := is.map (fun i => .frame (encode i)) }) hidle
      fun netid pin secret hi => hkey netid pin secret (hi ▸ List.mem_cons_self)
    obtain ⟨t, hrun, hend, hresp⟩ := ih (fun j hj => hwf j (List.mem_cons_of_mem i hj))
      (fun netid pin secret hj => hkey netid pin secret (List.mem_cons_of_mem i hj)) hidle' (deliver_inbox _ _)
    refine ⟨t, (run_succ_of_step (M := core) hstep is.length).trans hrun, hend, ?_⟩
    rw [hresp, deliver_replyOf_responses, List.append_assoc]
    rfl

/-- From reset, a command gets its response and no other. -/
theorem exec_reset_responses (i : Instr) :
    ∃ u, exec i State.reset = .next u ∧ u.responses = [responseOf i] :=
  ⟨_, exec_eq_next_iff.2 ⟨rfl, rfl⟩, deliver_replyOf_responses State.reset i⟩

/-- Settles O17, by induction on the commands: each step takes one frame, adds its response and stays Idle. -/
theorem runAnswersEveryFrame : Obligations.RunAnswersEveryFrame := by
  intro is s hwf hkey hidle hinbox
  obtain ⟨t, hrun, hend, hresp⟩ := run_of_frames hwf hkey hidle hinbox
  refine ⟨t, is.map responseOf, hrun, hend, hresp, ?_⟩
  rw [List.forall₂_map_right_iff, List.forall₂_same]
  exact fun i _ => exec_reset_responses i

end Sys2Proof.Machine

/-! ### The codec inverts both ways (R60 to R63, R72) -/

namespace Sys2Proof
open Machine

/-- Settles O1: the machine is one of the configurations of `decodeWith_encode`. -/
theorem decodeInvertsEncode : Obligations.DecodeInvertsEncode := fun _ hwf => decodeWith_encode hwf

/-- Settles O2: the machine is one of the configurations of `decodeWith_eq_ok`. -/
theorem decodeAcceptsOnlyEncodings : Obligations.DecodeAcceptsOnlyEncodings := fun _ _ hdec => decodeWith_eq_ok hdec

/-- Settles O3: each worked frame of R72 is the encoding of its command. -/
theorem workedFramesDecode : Obligations.WorkedFramesDecode :=
  ⟨decodeWith_encode (i := .b24enc [0x00#8, 0xff#8]) rfl,
    decodeWith_encode (i := .b24dec [0x30#8, 0x61#8, 0x66#8]) rfl,
    decodeWith_encode (i := .b24decl 2#16 [0x30#8, 0x61#8, 0x66#8]) rfl,
    decodeWith_encode (i := .nsmul [0x0a#8, 0xbc#8, 0xde#8]) rfl,
    decodeWith_encode (i := .nsdiv [0xab#8, 0xcd#8, 0xef#8]) rfl,
    decodeWith_encode (i := .pfxpack 0x128#16 1#8 0#8) rfl,
    decodeWith_encode (i := .pfxvfy 0x4a00#16 0x128#16 1#8 0#8) rfl,
    decodeWith_encode (i := .pfxunpk 0x4a11#16) rfl⟩

/-! ### Malformed frames (R63, R67) -/

section Fields
open Laws.EncodedLength (u16At_zero u16At_append u16At_measured)

/-- A buffer of `k + n` bytes is a run of `k` bytes and a rest of `n` (R61). -/
theorem exists_run_append {f : Bytes} {k n : Nat} (h : f.length = k + n) :
    ∃ b r : Bytes, b.length = k ∧ r.length = n ∧ f = b ++ r :=
  ⟨f.take k, f.drop k, by rw [List.length_take]; omega, by rw [List.length_drop]; omega,
    (List.take_append_drop k f).symm⟩

/-- A buffer of two bytes is a `u16` (R61). -/
theorem exists_u16Bytes {f : Bytes} (h : f.length = 2) : ∃ w, f = u16Bytes w := by
  obtain ⟨hi, lo, rfl⟩ := List.length_eq_two.1 h
  exact ⟨u16Of hi lo, (u16Bytes_u16Of hi lo).symm⟩

/-- A buffer of `2 + n` bytes is a `u16` and a rest of `n` (R61). -/
theorem exists_u16Bytes_append {f : Bytes} {n : Nat} (h : f.length = 2 + n) :
    ∃ w r, r.length = n ∧ f = u16Bytes w ++ r := by
  obtain ⟨b, r, hb, hr, rfl⟩ := exists_run_append h
  obtain ⟨w, rfl⟩ := exists_u16Bytes hb
  exact ⟨w, r, hr, rfl⟩

/-- Bytes as many as their first length field says start with a measured run (R61). -/
theorem exists_measured_append {f : Bytes} (h : 2 + u16At f 0 ≤ f.length) :
    ∃ b r, fitsU16 b = true ∧ f = measured b ++ r := by
  obtain ⟨w, r, hr, rfl⟩ := exists_u16Bytes_append (f := f) (n := f.length - 2) (by omega)
  rw [u16At_zero, List.length_append, length_u16Bytes] at h
  obtain ⟨b, r, hb, -, rfl⟩ := exists_run_append (f := r) (k := w.toNat) (n := r.length - w.toNat) (by omega)
  refine ⟨b, r, ?_, ?_⟩
  · have := w.isLt
    simp only [fitsU16, decide_eq_true_eq]
    omega
  · simp [measured, hb]

/-- The field behind `pre` is the first field of the rest. -/
theorem u16At_append_length (pre f : Bytes) : u16At (pre ++ f) pre.length = u16At f 0 := u16At_append pre f 0

/-- When the field behind `pre` measures the rest of a frame, the rest is a measured run (R61). -/
theorem exists_measured {pre f : Bytes} (h : pre.length + 2 + u16At (pre ++ f) pre.length = (pre ++ f).length) :
    ∃ b, fitsU16 b = true ∧ f = measured b := by
  rw [u16At_append_length, List.length_append] at h
  obtain ⟨b, r, hb, rfl⟩ := exists_measured_append (f := f) (by omega)
  rw [u16At_measured hb, List.length_append, length_measured] at h
  obtain rfl : r = [] := List.eq_nil_of_length_eq_zero (by omega)
  exact ⟨b, hb, List.append_nil _⟩

/-- When the field behind `pre` and the one after its run measure the rest of a frame, the rest is two measured
runs (R61, R62). -/
theorem exists_measured_measured {pre f : Bytes}
    (h : pre.length + 4 + u16At (pre ++ f) pre.length +
      u16At (pre ++ f) (pre.length + 2 + u16At (pre ++ f) pre.length) = (pre ++ f).length) :
    ∃ a b, fitsU16 a = true ∧ fitsU16 b = true ∧ f = measured a ++ measured b := by
  rw [u16At_append_length] at h
  obtain ⟨a, r, ha, rfl⟩ := exists_measured_append (f := f) (by rw [List.length_append] at h; omega)
  rw [u16At_measured ha, Nat.add_assoc pre.length 2, ← length_measured, ← List.length_append,
    ← List.append_assoc] at h
  obtain ⟨b, hb, rfl⟩ := exists_measured (pre := pre ++ measured a) (f := r) (by
    rw [← h, List.length_append, length_measured]
    omega)
  exact ⟨a, b, ha, hb, rfl⟩

/-- A buffer of `32 * n` bytes is `n` shares (R62, format XOR). -/
theorem exists_shares {n : Nat} {f : Bytes} (h : f.length = 32 * n) :
    ∃ ss : List Bytes, ss.length = n ∧ (∀ s ∈ ss, s.length = 32) ∧ f = ss.flatten := by
  induction n generalizing f with
  | zero => exact ⟨[], rfl, nofun, List.eq_nil_of_length_eq_zero h⟩
  | succ n ih =>
    obtain ⟨s, r, hs, hr, rfl⟩ := exists_run_append (f := f) (k := 32) (n := 32 * n) (by omega)
    obtain ⟨ss, hlen, hall, rfl⟩ := ih hr
    exact ⟨s :: ss, by rw [List.length_cons, hlen], List.forall_mem_cons.2 ⟨hs, hall⟩, rfl⟩

end Fields

/-- The lists of shares that `SHXOR` can carry under a configuration (R63 (e)). -/
theorem wellFormedWith_shxor {c : Config} {shares : List Bytes} :
    (Instr.shxor shares).wellFormedWith c = true ↔
      1 ≤ shares.length ∧ shares.length ≤ c.caps.maxShares ∧ ∀ s ∈ shares, s.length = 32 := by
  simp only [Instr.wellFormedWith, Bool.and_eq_true, decide_eq_true_eq, List.all_eq_true, beq_iff_eq, and_assoc]

/-- A frame with the length of its format, and a share count in range, is the frame of a well-formed command
(R62, R63). -/
theorem exists_encode_of_formatLength {c : Config} {f : Bytes} (hlen : formatLength f = some f.length)
    (hcount : byteAt f 0 = 0x0E → 1 ≤ byteAt f 1 ∧ byteAt f 1 ≤ c.caps.maxShares) :
    ∃ i : Instr, i.wellFormedWith c = true ∧ encode i = f := by
  cases f with
  | nil => cases hlen
  | cons op body =>
    have hbody : (op :: body).length = body.length + 1 := rfl
    simp only [formatLength] at hlen
    split at hlen <;> simp only [Option.some.injEq, reduceCtorEq] at hlen
    case h_1 hop =>
      obtain rfl : op = 0x01#8 := BitVec.eq_of_toNat_eq hop
      obtain ⟨d, hd, rfl⟩ := exists_measured (pre := [0x01#8]) hlen
      exact ⟨.b24enc d, hd, rfl⟩
    case h_2 hop =>
      obtain rfl : op = 0x02#8 := BitVec.eq_of_toNat_eq hop
      obtain ⟨s, hs, rfl⟩ := exists_measured (pre := [0x02#8]) hlen
      exact ⟨.b24dec s, hs, rfl⟩
    case h_3 hop =>
      obtain rfl : op = 0x04#8 := BitVec.eq_of_toNat_eq hop
      obtain ⟨d, hd, rfl⟩ := exists_measured (pre := [0x04#8]) hlen
      exact ⟨.nsmul d, hd, rfl⟩
    case h_4 hop =>
      obtain rfl : op = 0x05#8 := BitVec.eq_of_toNat_eq hop
      obtain ⟨d, hd, rfl⟩ := exists_measured (pre := [0x05#8]) hlen
      exact ⟨.nsdiv d, hd, rfl⟩
    case h_5 hop =>
      obtain rfl : op = 0x03#8 := BitVec.eq_of_toNat_eq hop
      obtain ⟨e, r, -, rfl⟩ := exists_u16Bytes_append (f := body) (n := body.length - 2) (by omega)
      obtain ⟨s, hs, rfl⟩ := exists_measured (pre := 0x03#8 :: u16Bytes e) hlen
      exact ⟨.b24decl e s, hs, rfl⟩
    case h_6 hop =>
      obtain rfl : op = 0x06#8 := BitVec.eq_of_toNat_eq hop
      obtain ⟨n, kx, hkx, rfl⟩ := exists_u16Bytes_append (f := body) (n := 2) (by omega)
      obtain ⟨k, x, rfl⟩ := List.length_eq_two.1 hkx
      exact ⟨.pfxpack n k x, rfl, rfl⟩
    case h_7 hop =>
      obtain rfl : op = 0x07#8 := BitVec.eq_of_toNat_eq hop
      obtain ⟨a, r, hr, rfl⟩ := exists_u16Bytes_append (f := body) (n := 4) (by omega)
      obtain ⟨n, kx, hkx, rfl⟩ := exists_u16Bytes_append (n := 2) hr
      obtain ⟨k, x, rfl⟩ := List.length_eq_two.1 hkx
      exact ⟨.pfxvfy a n k x, rfl, rfl⟩
    case h_8 hop =>
      obtain rfl : op = 0x08#8 := BitVec.eq_of_toNat_eq hop
      obtain ⟨w, rfl⟩ := exists_u16Bytes (f := body) (by omega)
      exact ⟨.pfxunpk w, rfl, rfl⟩
    case h_9 hop =>
      obtain rfl : op = 0x09#8 := BitVec.eq_of_toNat_eq hop
      obtain ⟨p, s, hs, rfl⟩ := exists_u16Bytes_append (f := body) (n := 32) (by omega)
      exact ⟨.cksum p s, by simpa [Instr.wellFormedWith] using hs, rfl⟩
    case h_10 hop =>
      obtain rfl : op = 0x0A#8 := BitVec.eq_of_toNat_eq hop
      obtain ⟨p, r, hr, rfl⟩ := exists_u16Bytes_append (f := body) (n := 35) (by omega)
      obtain ⟨s, e, hs, he, rfl⟩ := exists_run_append (k := 32) (n := 3) hr
      exact ⟨.ckvfy p s e, by simp [Instr.wellFormedWith, hs, he], rfl⟩
    case h_11 hop =>
      obtain rfl : op = 0x0B#8 := BitVec.eq_of_toNat_eq hop
      obtain ⟨n, r, -, rfl⟩ := exists_u16Bytes_append (f := body) (n := body.length - 2) (by omega)
      obtain ⟨p, s, hp, hs, rfl⟩ := exists_measured_measured (pre := 0x0B#8 :: u16Bytes n) hlen
      exact ⟨.tkenc n p s, by simp [Instr.wellFormedWith, hp, hs], rfl⟩
    case h_12 hop =>
      obtain rfl : op = 0x0C#8 := BitVec.eq_of_toNat_eq hop
      obtain ⟨n, r, -, rfl⟩ := exists_u16Bytes_append (f := body) (n := body.length - 2) (by omega)
      obtain ⟨p, s, hp, hs, rfl⟩ := exists_measured_measured (pre := 0x0C#8 :: u16Bytes n) hlen
      exact ⟨.tkdec n p s, by simp [Instr.wellFormedWith, hp, hs], rfl⟩
    case h_13 hop =>
      obtain rfl : op = 0x0D#8 := BitVec.eq_of_toNat_eq hop
      obtain ⟨n, r, hr, rfl⟩ := exists_u16Bytes_append (f := body) (n := 2 + (body.length - 4)) (by omega)
      obtain ⟨kx, r, hkx, -, rfl⟩ := exists_run_append hr
      obtain ⟨k, x, rfl⟩ := List.length_eq_two.1 hkx
      obtain ⟨p, s, hp, hs, rfl⟩ := exists_measured_measured (pre := 0x0D#8 :: (u16Bytes n ++ [k, x])) hlen
      exact ⟨.tkdecsh n k x p s, by simp [Instr.wellFormedWith, hp, hs], rfl⟩
    case h_14 hop =>
      obtain rfl : op = 0x0E#8 := BitVec.eq_of_toNat_eq hop
      obtain ⟨k, r, rfl⟩ := List.exists_cons_of_length_pos (l := body) (by omega)
      have hfields : (k :: r).length = r.length + 1 := rfl
      obtain ⟨ss, hss, hall, rfl⟩ := exists_shares (n := byteAt (0x0E#8 :: k :: r) 1) (f := r) (by omega)
      refine ⟨.shxor ss, ?_, ?_⟩
      · obtain ⟨hone, hmax⟩ := hcount rfl
        exact wellFormedWith_shxor.2 ⟨hss ▸ hone, hss ▸ hmax, hall⟩
      · have hk : BitVec.ofNat 8 ss.length = k := by
          simp [hss, byteAt]
        rw [encode, encodeBody, hk]
        rfl

/-- The frame of a well-formed command has the length of its format (R62). -/
theorem formatLength_encode {c : Config} {i : Instr} (hwf : i.wellFormedWith c = true) :
    formatLength (encode i) = some (encode i).length := by
  cases i with
  | b24enc d => exact Laws.EncodedLength.b24enc d c hwf
  | b24dec s => exact Laws.EncodedLength.b24dec s c hwf
  | b24decl e s => exact Laws.EncodedLength.b24decl e s c hwf
  | nsmul d => exact Laws.EncodedLength.nsmul d c hwf
  | nsdiv d => exact Laws.EncodedLength.nsdiv d c hwf
  | pfxpack n k x => exact Laws.EncodedLength.pfxpack n k x c hwf
  | pfxvfy a n k x => exact Laws.EncodedLength.pfxvfy a n k x c hwf
  | pfxunpk w => exact Laws.EncodedLength.pfxunpk w c hwf
  | cksum p s => exact Laws.EncodedLength.cksum p s c hwf
  | ckvfy p s e => exact Laws.EncodedLength.ckvfy p s e c hwf
  | tkenc n p s => exact Laws.EncodedLength.tkenc n p s c hwf
  | tkdec n p s => exact Laws.EncodedLength.tkdec n p s c hwf
  | tkdecsh n k x p s => exact Laws.EncodedLength.tkdecsh n k x p s c hwf
  | shxor ss => exact Laws.EncodedLength.shxor ss c hwf

/-- A count byte holds the count of at most 255 shares (R61). -/
theorem ofNat_length_toNat {shares : List Bytes} (h : shares.length ≤ 255) :
    (BitVec.ofNat 8 shares.length).toNat = shares.length := by
  rw [BitVec.toNat_ofNat]
  omega

/-- Opcode 0x0E is the opcode of `SHXOR` alone (R66). -/
theorem eq_shxor_of_opcode {i : Instr} (h : byteAt (encode i) 0 = 0x0E) : ∃ shares, i = .shxor shares := by
  cases i with
  | shxor shares => exact ⟨shares, rfl⟩
  | _ => exact absurd h (by simp [encode, byteAt, Instr.opcode])

/-- The share count of a well-formed command is in range (R63 (e)). -/
theorem shareCount_encode {c : Config} {i : Instr} (hwf : i.wellFormedWith c = true)
    (hop : byteAt (encode i) 0 = 0x0E) : 1 ≤ byteAt (encode i) 1 ∧ byteAt (encode i) 1 ≤ c.caps.maxShares := by
  obtain ⟨shares, rfl⟩ := eq_shxor_of_opcode hop
  obtain ⟨hone, hmax, -⟩ := wellFormedWith_shxor.1 hwf
  have hcount : byteAt (encode (.shxor shares)) 1 = shares.length :=
    ofNat_length_toNat (hmax.trans c.caps.maxShares_le)
  rw [hcount]
  exact ⟨hone, hmax⟩

/-- The frames that a configuration decodes, in the terms of the format table (R62, R63). -/
theorem decodeWith_isOk_iff {c : Config} {f : Bytes} :
    (∃ i, decodeWith c f = .ok i) ↔ formatLength f = some f.length ∧
      (byteAt f 0 = 0x0E → 1 ≤ byteAt f 1 ∧ byteAt f 1 ≤ c.caps.maxShares) := by
  constructor
  · rintro ⟨i, hi⟩
    obtain ⟨hwf, rfl⟩ := decodeWith_eq_ok hi
    exact ⟨formatLength_encode hwf, shareCount_encode hwf⟩
  · rintro ⟨hlen, hcount⟩
    obtain ⟨i, hwf, rfl⟩ := exists_encode_of_formatLength hlen hcount
    exact ⟨i, decodeWith_encode hwf⟩

/-- The decoder rejects what it does not decode. -/
theorem decodeWith_isError_iff {c : Config} {f : Bytes} :
    (∃ e, decodeWith c f = .error e) ↔ ¬ ∃ i, decodeWith c f = .ok i := by
  cases decodeWith c f <;> simp

/-- The malformed frames are those that have another length than their format, or a share count out of range. -/
theorem isMalformed_iff {f : Bytes} :
    IsMalformed f ↔ ¬ (formatLength f = some f.length ∧ (byteAt f 0 = 0x0E → 1 ≤ byteAt f 1 ∧ byteAt f 1 ≤ 8)) := by
  constructor
  · rintro (hnone | hlen | ⟨hop, hcount⟩) ⟨hlen', hcount'⟩
    · cases hnone.symm.trans hlen'
    · exact hlen hlen'
    · have := hcount' hop
      omega
  · intro h
    by_contra hm
    simp only [IsMalformed, not_or, not_not, not_and] at hm
    obtain ⟨-, hlen, hcount⟩ := hm
    exact h ⟨hlen, fun hop => by have := hcount hop; omega⟩

/-- The decoder of the machine rejects exactly the malformed frames (R63). -/
theorem decode_isError_iff {f : Bytes} : (∃ e, decode f = .error e) ↔ IsMalformed f := by
  rw [decodeWith_isError_iff, decodeWith_isOk_iff, isMalformed_iff, config_maxShares]

/-- A frame whose opcode is reserved has no format (R67). -/
theorem formatLength_of_reserved {op : Byte} (h : op = 0x00#8 ∨ 0x0F ≤ op.toNat) (body : Bytes) :
    formatLength (op :: body) = none := by
  have hop : op.toNat = 0 ∨ 15 ≤ op.toNat := h.imp_left (congrArg BitVec.toNat)
  simp only [formatLength]
  split
  case h_15 => rfl
  all_goals omega

end Sys2Proof

namespace Sys2Proof.Machine

/-- An Idle block answers a malformed frame with the fault `IllegalCommand` (R63, R252, R253). -/
theorem step_of_isMalformed {f : Bytes} {s : State} {rest : List HostEvent} (hidle : s.Idle)
    (hinbox : s.inbox = .frame f :: rest) (hf : IsMalformed f) :
    step s = .next { fcause := 0x81#8, inbox := rest, responses := s.responses ++ [⟨0x81#8, 0#16, []⟩] } := by
  obtain ⟨e, he : decodeWith config f = .error e⟩ := decode_isError_iff.2 hf
  rw [step_of_frame hidle hinbox, frameReply, frameReplyWith, he]
  rfl

/-- Settles O4: the decoder against the format table, and the reply of a frame that it rejects. -/
theorem malformedFrameFaults : Obligations.MalformedFrameFaults :=
  fun _ => ⟨decode_isError_iff, fun _ _ => step_of_isMalformed⟩

/-- Settles O5: a frame with a reserved opcode has no format, so it is malformed. -/
theorem reservedOpcodeFaults : Obligations.ReservedOpcodeFaults := by
  intro op body s rest hop hidle hinbox
  exact step_of_isMalformed hidle hinbox (.inl (formatLength_of_reserved hop body))

end Sys2Proof.Machine

/-! ### `MAXSHARES` (R8, R63 (e)) -/

namespace Sys2Proof
open Machine

/-- A share count of 0, or above the configuration's `MAXSHARES`, is rejected whatever follows (R63 (e)). -/
theorem decodeWith_of_shareCount {c : Config} {n : Byte} (h : n.toNat = 0 ∨ c.caps.maxShares < n.toNat) (r : Bytes) :
    decodeWith c (0x0E#8 :: n :: r) = .error (.shareCount n) := if_pos h

/-- Settles O47: in range the command is well-formed, and out of range its count byte is. -/
theorem shareCountBoundedByMaxShares : Obligations.ShareCountBoundedByMaxShares := by
  intro c shares hcount hall
  constructor
  · intro hone hmax
    exact decodeWith_encode (wellFormedWith_shxor.2 ⟨hone, hmax, hall⟩)
  · intro hout
    rw [← ofNat_length_toNat hcount] at hout
    exact ⟨_, decodeWith_of_shareCount hout shares.flatten⟩

end Sys2Proof

/-! ### A command's one response, dispatch and reset (R64, R70, R280) -/

namespace Sys2Proof.Machine

/-- The response of a well-formed command is well-formed (R64). -/
theorem responseOf_wellFormed {i : Instr} (hwf : i.wellFormed = true) : (responseOf i).WellFormed :=
  mkResponse_wellFormed (length_rdata_replyOf_lt hwf)

/-- Settles O18: the command delivers its reply, and the response of that reply is well-formed. -/
theorem everyCommandAnswersOnce : Obligations.EveryCommandAnswersOnce := by
  intro i s hwf hidle
  exact ⟨s.deliver (replyOf i), responseOf i, exec_eq_next_iff.2 ⟨hidle, rfl⟩, deliver_inbox _ _,
    deliver_replyOf_responses s i, responseOf_wellFormed hwf, rfl⟩

/-- Settles O6: the machine is the instance with its own configuration. -/
theorem stepExecutesDecodedFrame : Obligations.StepExecutesDecodedFrame := by
  intro s f rest i hidle hinbox hdec
  rw [step_eq_stepWith, exec_eq_execWith]
  exact stepWith_of_decodeWith hidle hinbox hdec

/-- Settles O12: the reset state is Idle and has no response (R28). -/
theorem invariantAtReset : Obligations.InvariantAtReset where
  fcause_legal := .inl resetStateIsIdle
  responses_wf := nofun
  faulted_last := fun hfaulted => absurd resetStateIsIdle hfaulted

/-! ### Capacities under every configuration (R69, R249) -/

/-- The status `ERR_CAPACITY` is the status of that error alone (R240). -/
theorem status_eq_capacity_iff {r : Reply} : r.status = 0x06#8 ↔ r = .err .capacity := by
  cases r with
  | ok d => simp [Reply.status, statusOk]
  | err k => cases k <;> simp [Reply.status, ErrKind.code]
  | fault c => cases c <;> simp [Reply.status, FaultCause.code]

/-- An Idle instance answers `ERR_CAPACITY` and changes nothing else when that is the command's reply. -/
theorem execWith_of_capacity {c : Config} {i : Instr} {s : State} (hidle : s.Idle)
    (h : replyWith c i = .err .capacity) : execWith c i s = .next (s.respond 0x06#8 []) := by
  rw [execWith_eq_next_iff, h]
  exact ⟨hidle, rfl⟩

/-- A length over the capacity is over it (R69). -/
theorem exceeds_eq_true {n m : Nat} {cap : Option Nat} (hcap : cap = some m) (h : m < n) : exceeds n cap = true := by
  simpa [hcap] using h

/-- Decoding a string never answers `ERR_CAPACITY`: that is the commands' own test (R69, R102). -/
theorem b24decode_ne_capacity (a : Alphabet) (str : Syms) (explen : Option Nat) :
    b24decode a str explen ≠ .error .capacity := by
  rcases absent_or_digits a str with habs | ⟨ds, hds, rfl⟩
  · rw [b24decode_of_absent habs]
    nofun
  · rw [b24decode_map hds]
    cases explen with
    | none => nofun
    | some n =>
      simp only
      split <;> nofun

/-- The left shift fails with `Overflow` alone (R120). -/
theorem shiftLeft4_ne_capacity (b : Bytes) : shiftLeft4 b ≠ .error .capacity := by
  rw [shiftLeft4_eq]
  split <;> nofun

/-- Opening a payload fails with a mismatch alone (R187). -/
theorem openPayload_ne_capacity (p : OpenParams) (payload pin : Bytes) (n k x : Nat) :
    openPayload p payload pin n k x ≠ .error .capacity := by
  rw [openPayload_eq]
  simp only
  split
  · nofun
  · split <;> nofun

/-- A `do` block does not fail with an error that none of its parts fails with. -/
theorem except_bind_ne_error {ε α β : Type} {x : Except ε α} {f : α → Except ε β} {e : ε} (hx : x ≠ .error e)
    (hf : ∀ a, f a ≠ .error e) : (x >>= f) ≠ .error e := by
  cases x with
  | ok a => exact hf a
  | error e' => exact fun h => hx (congrArg Except.error (Except.error.inj h))

theorem decryptSingle_ne_capacity (p : OpenParams) (str : Syms) (pin : Bytes) (n : Nat) :
    decryptSingle p str pin n ≠ .error .capacity :=
  except_bind_ne_error (b24decode_ne_capacity _ _ _) fun _ =>
    except_bind_ne_error (shiftLeft4_ne_capacity _) fun _ => openPayload_ne_capacity _ _ _ _ _ _

theorem decryptShare_ne_capacity (c : Config) (str : Syms) (pin : Bytes) (n k x : Nat) :
    decryptShare c str pin n k x ≠ .error .capacity :=
  except_bind_ne_error (b24decode_ne_capacity _ _ _) fun _ =>
    except_bind_ne_error (shiftLeft4_ne_capacity _) fun _ =>
      except_bind_ne_error (shiftLeft4_ne_capacity _) fun _ => openPayload_ne_capacity _ _ _ _ _ _

/-- A unit function's outcome replies with an error only when it is that error (R13). -/
theorem ofUnit_ne_err {e : Except ErrKind Bytes} {k : ErrKind} (h : e ≠ .error k) : Reply.ofUnit e ≠ .err k := by
  cases e with
  | ok d => nofun
  | error k' => exact fun hk => h (congrArg Except.error (Reply.err.inj hk))

/-- An unbounded capacity tests no result (R69). -/
@[simp] theorem guardResult_none (r : Reply) : guardResult none r = r := by
  cases r <;> rfl

/-- With `MAXBYTES`, `MAXSYMS` and `MAXPIN` unbounded no command replies `ERR_CAPACITY` (R69, R249). -/
theorem replyWith_ne_capacity_of_unbounded {c : Config} (hbytes : c.caps.maxBytes = none)
    (hsyms : c.caps.maxSyms = none) (hpin : c.caps.maxPin = none) (i : Instr) :
    replyWith c i ≠ .err .capacity := by
  cases i with
  | b24enc data => simp [replyWith, b24encReply, hbytes, hsyms]
  | b24dec str =>
    simpa [replyWith, b24decReply, hbytes, hsyms] using ofUnit_ne_err (b24decode_ne_capacity _ str none)
  | b24decl explen str =>
    simpa [replyWith, b24declReply, hbytes, hsyms] using ofUnit_ne_err (b24decode_ne_capacity _ str _)
  | nsmul data => simpa [replyWith, nsmulReply, hbytes] using ofUnit_ne_err (shiftLeft4_ne_capacity data)
  | nsdiv data => simp [replyWith, nsdivReply, hbytes]
  | pfxpack n k x => nofun
  | pfxvfy a n k x =>
    by_cases h : a = pack n.toNat k.toNat x.toNat <;> simp [replyWith, pfxvfyReply, verifyPrefix, h]
  | pfxunpk w => nofun
  | cksum p s => nofun
  | ckvfy p s e =>
    by_cases h : computeChecksum c.params p s = e <;> simp [replyWith, ckvfyReply, validateChecksum, h]
  | tkenc n p s =>
    simp only [replyWith, tkencReply, hpin, exceeds_none, guardCapacity_false]
    split <;> nofun
  | tkdec n p s =>
    simpa [replyWith, tkdecReply, hpin, hsyms] using ofUnit_ne_err (decryptSingle_ne_capacity _ s p _)
  | tkdecsh n k x p s =>
    simpa [replyWith, tkdecshReply, hpin, hsyms] using ofUnit_ne_err (decryptShare_ne_capacity c s p _ _ _)
  | shxor ss => nofun

/-- A capacity test keeps the answer `ERR_CAPACITY` of a later one (R69). -/
@[simp] theorem guardCapacity_capacity (b : Bool) : guardCapacity b (.err .capacity) = .err .capacity := by
  cases b <;> rfl

/-- Settles O49: each clause names the test that the operand or the result fails; without bounds no test fails. -/
theorem capacityOfEveryConfig : Obligations.CapacityOfEveryConfig := by
  intro c s hidle
  refine ⟨?_, ?_, ?_, ?_, ?_, ?_⟩
  · intro m data hcap hlen
    have hover := exceeds_eq_true hcap hlen
    refine ⟨?_, ?_, ?_⟩ <;> apply execWith_of_capacity hidle
    · simp [replyWith, b24encReply, hover]
    · simp [replyWith, nsmulReply, hover]
    · simp [replyWith, nsdivReply, hover]
  · intro m str pin explen netid count index hcap hlen
    have hover := exceeds_eq_true hcap hlen
    refine ⟨?_, ?_, ?_, ?_⟩ <;> apply execWith_of_capacity hidle
    · simp [replyWith, b24decReply, hover]
    · simp [replyWith, b24declReply, hover]
    · simp [replyWith, tkdecReply, hover]
    · simp [replyWith, tkdecshReply, hover]
  · intro m str pin secret netid count index hcap hlen
    have hover := exceeds_eq_true hcap hlen
    refine ⟨fun hsecret => ?_, ?_, ?_⟩ <;> apply execWith_of_capacity hidle
    · simp [replyWith, tkencReply, hsecret, hover]
    · simp [replyWith, tkdecReply, hover]
    · simp [replyWith, tkdecshReply, hover]
  · intro m data hcap hlen
    have hover := exceeds_eq_true hcap hlen
    apply execWith_of_capacity hidle
    simp [replyWith, b24encReply, guardResult_ok, hover]
  · intro m str explen r hcap hlen
    have hover := exceeds_eq_true hcap hlen
    refine ⟨fun hdec => ?_, fun hdec => ?_⟩ <;> apply execWith_of_capacity hidle
    · simp [replyWith, b24decReply, hdec, Reply.ofUnit, guardResult_ok, hover]
    · simp [replyWith, b24declReply, hdec, Reply.ofUnit, guardResult_ok, hover]
  · intro hbytes hsyms hpin i t r hexec hresp hstatus
    obtain ⟨-, rfl⟩ := execWith_eq_next_iff.1 hexec
    rw [deliver_responses, List.append_cancel_left_eq, List.singleton_inj] at hresp
    subst hresp
    exact replyWith_ne_capacity_of_unbounded hbytes hsyms hpin i (status_eq_capacity_iff.1 hstatus)

end Sys2Proof.Machine

/-! ### The Base24 commands: which results they answer (R101, R104, R105) -/

namespace Sys2Proof.Machine

/-- An Idle block executes a command by delivering its reply (R70). -/
theorem exec_of_replyOf {i : Instr} {s : State} {r : Reply} (hidle : s.Idle) (h : replyOf i = r) :
    exec i s = .next (s.deliver r) := by
  rw [exec_eq_next_iff, h]
  exact ⟨hidle, rfl⟩

/-- A reply is delivered as an `OK` response exactly when it is that result (R64, R70). -/
theorem deliver_eq_respond_ok_iff {s : State} {r : Reply} {d : Bytes} :
    s.deliver r = s.respond 0x00#8 d ↔ r = .ok d := by
  constructor
  · intro h
    have hresp : mkResponse r.status r.rdata = mkResponse 0x00#8 d := by
      simpa using congrArg State.responses h
    obtain ⟨d', rfl⟩ := (status_eq_zero_iff r).1 (congrArg Response.status hresp)
    exact congrArg Reply.ok (congrArg Response.rdata hresp)
  · rintro rfl
    rfl

/-- An Idle block answers `OK` with a command's result and with nothing else. -/
theorem exec_eq_respond_ok_iff {i : Instr} {s : State} {d : Bytes} (hidle : s.Idle) :
    exec i s = .next (s.respond 0x00#8 d) ↔ replyOf i = .ok d := by
  rw [exec_eq_next_iff, eq_comm (a := s.respond _ _), deliver_eq_respond_ok_iff]
  exact and_iff_right hidle

/-- What passes a capacity test on the operand and one on the result (R69). -/
theorem guardCapacity_guardResult_eq_ok_iff {n capN capR : Nat} {r : Reply} {d : Bytes} :
    guardCapacity (exceeds n (some capN)) (guardResult (some capR) r) = .ok d ↔
      n ≤ capN ∧ r = .ok d ∧ d.length ≤ capR := by
  rw [guardCapacity_eq_ok_iff, guardResult_eq_ok_iff, exceeds_some_eq_false, exceeds_some_eq_false]

/-- What `B24ENC` answers `OK`: data within `MAXBYTES`, whose encoding is always within `MAXSYMS` (R9, R101). -/
theorem replyOf_b24enc_eq_ok_iff {data : Bytes} {str : Syms} :
    replyOf (.b24enc data) = .ok str ↔ data.length ≤ 64 ∧ b24encode config.params.alphabet data = str := by
  refine guardCapacity_guardResult_eq_ok_iff.trans ?_
  rw [Reply.ok.injEq]
  constructor
  · rintro ⟨hdata, hstr, -⟩
    exact ⟨hdata, hstr⟩
  · rintro ⟨hdata, rfl⟩
    exact ⟨hdata, rfl, length_b24encode_le_112 hdata⟩

/-- What `B24DEC` answers `OK`: a string within `MAXSYMS` that decodes to data within `MAXBYTES` (R104). -/
theorem replyOf_b24dec_eq_ok_iff {str : Syms} {data : Bytes} :
    replyOf (.b24dec str) = .ok data ↔
      str.length ≤ 112 ∧ b24decode config.params.alphabet str none = .ok data ∧ data.length ≤ 64 := by
  rw [← ofUnit_eq_ok_iff]
  exact guardCapacity_guardResult_eq_ok_iff

/-- What `B24DECL` answers `OK`: the same, at the expected length (R105). -/
theorem replyOf_b24decl_eq_ok_iff {explen : U16} {str : Syms} {data : Bytes} :
    replyOf (.b24decl explen str) = .ok data ↔
      str.length ≤ 112 ∧ b24decode config.params.alphabet str (some explen.toNat) = .ok data ∧ data.length ≤ 64 := by
  rw [← ofUnit_eq_ok_iff]
  exact guardCapacity_guardResult_eq_ok_iff

/-! ### The two directions of the codec (R107, R108) -/

/-- Settles O27: the encoding is within `MAXSYMS`, and decoding it at the length of the buffer gives the buffer. -/
theorem base24RoundTrip : Obligations.Base24RoundTrip := by
  have hround (a : Alphabet) (data : Bytes) : b24decode a (b24encode a data) (some data.length) = .ok data :=
    b24decode_b24encode a data (.inr rfl)
  refine ⟨fun data s s' hidle hidle' hlen => ⟨b24encode config.params.alphabet data, ?_, ?_⟩, hround⟩
  · exact (exec_eq_respond_ok_iff hidle).2 (replyOf_b24enc_eq_ok_iff.2 ⟨hlen, rfl⟩)
  · have hexplen : (BitVec.ofNat 16 data.length).toNat = data.length := by
      rw [BitVec.toNat_ofNat]
      omega
    refine (exec_eq_respond_ok_iff hidle').2 (replyOf_b24decl_eq_ok_iff.2 ⟨length_b24encode_le_112 hlen, ?_, hlen⟩)
    rw [hexplen]
    exact hround _ _

/-- A string that decodes is the encoding of its decoding, and is not shorter (R107). -/
theorem b24encode_of_b24decode {a : Alphabet} {str : Syms} {data : Bytes} (h : b24decode a str none = .ok data) :
    b24encode a data = str ∧ data.length ≤ str.length := by
  rcases absent_or_digits a str with habs | ⟨ds, hds, rfl⟩
  · cases (b24decode_of_absent habs none).symm.trans h
  · obtain rfl : decodedBytes ds = data := Except.ok.inj ((b24decode_map hds none).symm.trans h)
    refine ⟨?_, ?_⟩
    · rw [b24encode, encodeDigits_decodedBytes hds]
    · rw [List.length_map]
      exact length_decodedBytes_le ds hds

/-- Settles O28: a result of `B24DEC` is within `MAXBYTES`, so `B24ENC` answers its encoding, which is the string. -/
theorem base24DecodeThenEncode : Obligations.Base24DecodeThenEncode := by
  refine ⟨fun a str data => b24encode_of_b24decode, fun str data s s' hidle hidle' hexec => ?_⟩
  obtain ⟨-, hdec, hlen⟩ := replyOf_b24dec_eq_ok_iff.1 ((exec_eq_respond_ok_iff hidle).1 hexec)
  obtain ⟨henc, -⟩ := b24encode_of_b24decode hdec
  exact (exec_eq_respond_ok_iff hidle').2 (replyOf_b24enc_eq_ok_iff.2 ⟨hlen, henc⟩)

/-! ### The codec in the library's digits (R100, R102, R103) -/

/-- R100: the digits of an encoding, by `Nat.digits`. -/
theorem encodeDigits_eq_digits (b : Bytes) :
    encodeDigits b = List.replicate (b.takeWhile (· == 0#8)).length 0 ++
      (Nat.digits 24 (Nat.ofDigits 256 (b.map BitVec.toNat).reverse)).reverse := by
  rw [encodeDigits, lz, digitsOf_eq (by norm_num), be_eq_ofDigits, ofDigits_eq]

/-- R102, R103: the bytes of a decoding, by `Nat.digits`. -/
theorem decodedBytes_eq_digits (ds : List Nat) :
    decodedBytes ds = List.replicate (ds.takeWhile (· == 0)).length 0#8 ++
      (Nat.digits 256 (Nat.ofDigits 24 ds.reverse)).reverse.map (BitVec.ofNat 8) := by
  rw [decodedBytes, minBytes, digitsOf_eq (by norm_num), ofDigits_eq]

/-! ### The commands over a capacity, on an absent symbol and on digits (R69, R101, R104, R105) -/

/-- Settles O24: the result is the encoding, whose digits are the library's; over `MAXBYTES` the operand test fails. -/
theorem b24encResult : Obligations.B24encResult := by
  intro data s hidle
  constructor
  · intro hlen
    rw [← encodeDigits_eq_digits]
    exact (exec_eq_respond_ok_iff hidle).2 (replyOf_b24enc_eq_ok_iff.2 ⟨hlen, rfl⟩)
  · intro hlen
    obtain ⟨hbytes, -⟩ := capacityOfEveryConfig config s hidle
    rw [exec_eq_execWith]
    exact (hbytes 64 data rfl hlen).1

/-- An operand within its capacity passes the test (R69). -/
theorem guardCapacity_of_le {n cap : Nat} (h : n ≤ cap) (r : Reply) : guardCapacity (exceeds n (some cap)) r = r := by
  rw [exceeds_some_eq_false.2 h, guardCapacity_false]

/-- Two operands within their capacities pass the test of both (R69). -/
theorem guardCapacity_or_of_le {n m capN capM : Nat} (hn : n ≤ capN) (hm : m ≤ capM) (r : Reply) :
    guardCapacity (exceeds n (some capN) || exceeds m (some capM)) r = r := by
  rw [exceeds_some_eq_false.2 hn, exceeds_some_eq_false.2 hm, Bool.or_false, guardCapacity_false]

section WithinCapacity
variable {str : Syms} (hlen : str.length ≤ 112)
include hlen

theorem replyOf_b24dec :
    replyOf (.b24dec str) = guardResult (some 64) (.ofUnit (b24decode config.params.alphabet str none)) :=
  guardCapacity_of_le hlen _

theorem replyOf_b24decl (explen : U16) :
    replyOf (.b24decl explen str) =
      guardResult (some 64) (.ofUnit (b24decode config.params.alphabet str (some explen.toNat))) :=
  guardCapacity_of_le hlen _

theorem replyOf_tkdec {pin : Bytes} (hpin : pin.length ≤ 255) (netid : U16) :
    replyOf (.tkdec netid pin str) = .ofUnit (decryptSingle config.params str pin netid.toNat) :=
  guardCapacity_or_of_le hpin hlen _

theorem replyOf_tkdecsh {pin : Bytes} (hpin : pin.length ≤ 255) (netid : U16) (count index : Byte) :
    replyOf (.tkdecsh netid count index pin str) =
      .ofUnit (decryptShare config str pin netid.toNat count.toNat index.toNat) :=
  guardCapacity_or_of_le hpin hlen _

section Absent
variable (habs : ∃ c ∈ str, c ∉ config.params.alphabet.codes)
include habs

theorem replyOf_b24dec_of_absent : replyOf (.b24dec str) = .err .invalidSymbol := by
  rw [replyOf_b24dec hlen, b24decode_of_absent habs]
  rfl

theorem replyOf_b24decl_of_absent (explen : U16) : replyOf (.b24decl explen str) = .err .invalidSymbol := by
  rw [replyOf_b24decl hlen, b24decode_of_absent habs]
  rfl

/-- The symbols are looked up before anything else is tested (R186). -/
theorem replyOf_tkdec_of_absent {pin : Bytes} (hpin : pin.length ≤ 255) (netid : U16) :
    replyOf (.tkdec netid pin str) = .err .invalidSymbol := by
  rw [replyOf_tkdec hlen hpin, decryptSingle, b24decode_of_absent habs]
  rfl

/-- The symbols are looked up before anything else is tested (R188). -/
theorem replyOf_tkdecsh_of_absent {pin : Bytes} (hpin : pin.length ≤ 255) (netid : U16) (count index : Byte) :
    replyOf (.tkdecsh netid count index pin str) = .err .invalidSymbol := by
  rw [replyOf_tkdecsh hlen hpin, decryptShare, b24decode_of_absent habs]
  rfl

end Absent

end WithinCapacity

section Digits
variable {ds : List Nat} (hlen : ds.length ≤ 112) (hds : ∀ d ∈ ds, d < 24)
include hlen hds

/-- On the string of a digit list only the result test is left (R104). -/
theorem replyOf_b24dec_map :
    replyOf (.b24dec (ds.map (symOf config.params.alphabet))) = guardResult (some 64) (.ok (decodedBytes ds)) := by
  rw [replyOf_b24dec (by rwa [List.length_map]), b24decode_map hds]
  rfl

/-- On the string of a digit list the length is compared, then the result test is left (R105). -/
theorem replyOf_b24decl_map (explen : U16) :
    replyOf (.b24decl explen (ds.map (symOf config.params.alphabet))) =
      if (decodedBytes ds).length ≠ explen.toNat then .err .lengthMismatch
      else guardResult (some 64) (.ok (decodedBytes ds)) := by
  rw [replyOf_b24decl (by rwa [List.length_map]), b24decode_map hds]
  by_cases h : (decodedBytes ds).length = explen.toNat
  · simp only [h, ne_eq, not_true_eq_false, if_true, if_false]
    rfl
  · simp only [h, ne_eq, not_false_eq_true, if_true, if_false]
    rfl

end Digits

/-- How a result under a capacity is answered (R69). -/
theorem deliver_guardResult_ok (s : State) (cap : Nat) (d : Bytes) :
    s.deliver (guardResult (some cap) (.ok d)) =
      if d.length ≤ cap then s.respond 0x00#8 d else s.respond 0x06#8 [] := by
  rw [guardResult_ok]
  split
  next hle =>
    rw [guardCapacity_of_le hle]
    rfl
  next hover =>
    rw [exceeds_eq_true rfl (not_le.1 hover)]
    rfl

/-- Settles O25: one clause per reply, the bytes of a digit list by the library's digits. -/
theorem b24decResult : Obligations.B24decResult := by
  intro s hidle
  refine ⟨?_, ?_, ?_⟩
  · intro str hlen
    obtain ⟨-, hsyms, -⟩ := capacityOfEveryConfig config s hidle
    rw [exec_eq_execWith]
    exact (hsyms 112 str [] 0#16 0#16 0#8 0#8 rfl hlen).1
  · intro str hlen habs
    exact exec_of_replyOf hidle (replyOf_b24dec_of_absent hlen habs)
  · intro ds hlen hds
    simp only
    rw [← decodedBytes_eq_digits, exec_of_replyOf hidle (replyOf_b24dec_map hlen hds), deliver_guardResult_ok]

/-- Settles O26: as O25, with the length compared between the symbols and the result. -/
theorem b24declResult : Obligations.B24declResult := by
  intro explen s hidle
  refine ⟨?_, ?_, ?_⟩
  · intro str hlen
    obtain ⟨-, hsyms, -⟩ := capacityOfEveryConfig config s hidle
    obtain ⟨-, h, -⟩ := hsyms 112 str [] explen 0#16 0#8 0#8 rfl hlen
    rw [exec_eq_execWith, h]
  · intro str hlen habs
    exact exec_of_replyOf hidle (replyOf_b24decl_of_absent hlen habs explen)
  · intro ds hlen hds
    simp only
    rw [← decodedBytes_eq_digits, exec_of_replyOf hidle (replyOf_b24decl_map hlen hds explen),
      ← deliver_guardResult_ok, apply_ite s.deliver]
    rfl

/-! ### No dash (R109) -/

/-- A command that emits a string emits an encoding (R101, R193). -/
theorem exists_b24encode_of_replyOf {i : Instr} {d : Bytes}
    (hi : (∃ data, i = .b24enc data) ∨ ∃ netid pin secret, i = .tkenc netid pin secret) (h : replyOf i = .ok d) :
    ∃ b, d = b24encode config.params.alphabet b := by
  rcases hi with ⟨data, rfl⟩ | ⟨netid, pin, secret, rfl⟩
  · exact ⟨data, (replyOf_b24enc_eq_ok_iff.1 h).2.symm⟩
  · simp only [replyWith, tkencReply] at h
    split at h
    next => cases h
    next =>
      obtain ⟨-, h⟩ := guardCapacity_eq_ok_iff.1 h
      exact ⟨_, (Reply.ok.inj h).symm⟩

theorem dash_not_mem_b24encode (a : Alphabet) (b : Bytes) : 0x2D#8 ∉ b24encode a b :=
  fun h => a.dash_not_mem (mem_b24encode h)

/-- The response of a command that emits a string has no dash: it is an encoding or has no data. -/
theorem dash_not_mem_rdata {i : Instr}
    (hi : (∃ data, i = .b24enc data) ∨ ∃ netid pin secret, i = .tkenc netid pin secret) :
    0x2D#8 ∉ (replyOf i).rdata := by
  cases h : replyOf i with
  | ok d =>
    obtain ⟨b, rfl⟩ := exists_b24encode_of_replyOf hi h
    exact dash_not_mem_b24encode _ b
  | err k => exact List.not_mem_nil
  | fault c => exact List.not_mem_nil

/-- Settles O29: what is emitted is an encoding, and each decoder tests the symbols right after the capacities. -/
theorem dashIsNeverASymbol : Obligations.DashIsNeverASymbol := by
  refine ⟨?_, ?_⟩
  · intro i s t r hi hexec hresp
    obtain ⟨-, rfl⟩ := exec_eq_next_iff.1 hexec
    rw [deliver_replyOf_responses, List.append_cancel_left_eq, List.singleton_inj] at hresp
    subst hresp
    exact dash_not_mem_rdata hi
  · intro str pin explen netid count index s hidle hlen hpin hdash
    have habs : ∃ c ∈ str, c ∉ config.params.alphabet.codes := ⟨0x2D#8, hdash, Alphabet.dash_not_mem _⟩
    exact ⟨exec_of_replyOf hidle (replyOf_b24dec_of_absent hlen habs),
      exec_of_replyOf hidle (replyOf_b24decl_of_absent hlen habs explen),
      exec_of_replyOf hidle (replyOf_tkdec_of_absent hlen habs hpin netid),
      exec_of_replyOf hidle (replyOf_tkdecsh_of_absent hlen habs hpin netid count index)⟩

end Sys2Proof.Machine

/-! ### The two nibble shifts (R120 to R124, R126) -/

namespace Sys2Proof.Machine

/-- Without a high nibble in front, the left shift is its byte form (R120). -/
theorem shiftLeft4_of_lt {b : Bytes} (h : (b.getD 0 0#8).toNat < 0x10) : shiftLeft4 b = .ok (leftBytes b) := by
  rw [shiftLeft4_eq, if_pos h]

/-- When the left shift fails (R124 (c)). -/
theorem shiftLeft4_eq_overflow_iff {b : Bytes} :
    shiftLeft4 b = .error .overflow ↔ 0x10 ≤ (b.getD 0 0#8).toNat := by
  rw [shiftLeft4_eq]
  split
  next hlt => exact ⟨nofun, fun hge => absurd hlt (not_lt.2 hge)⟩
  next hge => exact iff_of_true rfl (not_lt.1 hge)

/-- The first byte of the empty buffer is read as 0, so a high nibble in front is that of a byte (R126). -/
theorem ne_nil_of_le_getD_zero {b : Bytes} (h : 0x10 ≤ (b.getD 0 0#8).toNat) : b ≠ [] := by
  rintro rfl
  exact absurd h (by decide)

/-- Settles O32: the laws of the byte forms, and what the left shift can do. -/
theorem shiftLaws : Obligations.ShiftLaws := by
  refine ⟨shiftLeft4_shiftRight4, ?_, ?_, length_shiftRight4, rfl, rfl⟩
  · intro b r h
    exact ⟨shiftRight4_shiftLeft4 h, length_of_shiftLeft4 h⟩
  · intro b
    rw [shiftLeft4_eq_overflow_iff]
    exact ⟨fun h => ⟨ne_nil_of_le_getD_zero h, h⟩, And.right⟩

section WithinMaxBytes
variable {data : Bytes} (hlen : data.length ≤ 64)
include hlen

theorem replyOf_nsmul : replyOf (.nsmul data) = .ofUnit (shiftLeft4 data) := guardCapacity_of_le hlen _

theorem replyOf_nsdiv : replyOf (.nsdiv data) = .ok (shiftRight4 data) := guardCapacity_of_le hlen _

end WithinMaxBytes

/-- Settles O30: one clause per reply; the result is the byte form of the left shift. -/
theorem nsmulResult : Obligations.NsmulResult := by
  intro data s hidle
  refine ⟨?_, ?_, ?_⟩
  · intro hlen
    obtain ⟨hbytes, -⟩ := capacityOfEveryConfig config s hidle
    obtain ⟨-, hnsmul, -⟩ := hbytes 64 data rfl hlen
    rw [exec_eq_execWith, hnsmul]
  · intro hlen hhigh
    have hreply : replyOf (.nsmul data) = .err .overflow := by
      rw [replyOf_nsmul hlen, shiftLeft4_eq_overflow_iff.2 hhigh, Reply.ofUnit]
    exact exec_of_replyOf hidle hreply
  · intro hlen hlow
    have hreply : replyOf (.nsmul data) = .ok (leftBytes data) := by
      rw [replyOf_nsmul hlen, shiftLeft4_of_lt hlow, Reply.ofUnit]
    exact ⟨leftBytes data, exec_of_replyOf hidle hreply, length_leftBytes data, be_leftBytes_of_lt hlow,
      fun i hi => getD_leftBytes hi⟩

/-- Settles O31: as O30 without an overflow; the result is the byte form of the right shift after a zero byte. -/
theorem nsdivResult : Obligations.NsdivResult := by
  intro data s hidle
  refine ⟨?_, ?_⟩
  · intro hlen
    obtain ⟨hbytes, -⟩ := capacityOfEveryConfig config s hidle
    obtain ⟨-, -, hnsdiv⟩ := hbytes 64 data rfl hlen
    rw [exec_eq_execWith, hnsdiv]
  · intro hlen
    refine ⟨shiftRight4 data, exec_of_replyOf hidle (replyOf_nsdiv hlen), length_shiftRight4 data,
      be_shiftRight4 data, ?_⟩
    intro i hi
    rw [shiftRight4_eq]
    exact getD_rightBytes hi

end Sys2Proof.Machine

/-! ### The prefix commands (R140 to R147) -/

namespace Sys2Proof.Machine

theorem u16Bytes_inj {v w : U16} : u16Bytes v = u16Bytes w ↔ v = w := by
  refine ⟨fun h => BitVec.eq_of_toNat_eq ?_, congrArg u16Bytes⟩
  rw [← be_u16Bytes v, ← be_u16Bytes w, h]

/-- What `PFXVFY` answers: one comparison with the packed word (R143, R144). -/
theorem replyOf_pfxvfy (actual netid : U16) (count index : Byte) :
    replyOf (.pfxvfy actual netid count index) =
      if actual = pack netid.toNat count.toNat index.toNat then .ok [] else .err .prefixMismatch := by
  by_cases h : actual = pack netid.toNat count.toNat index.toNat <;>
    simp [replyWith, pfxvfyReply, verifyPrefix, h]

/-- The three fields of a word as its bit slices (R145). -/
theorem unpackFields_eq_extractLsb' (word : U16) :
    unpackFields word = u16Bytes ((word.extractLsb' 6 10).setWidth 16) ++
      [(word.extractLsb' 3 3).setWidth 8 + 1#8, (word.extractLsb' 0 3).setWidth 8] := by
  have hnetid : BitVec.ofNat 16 (word.toNat / 64) = (word.extractLsb' 6 10).setWidth 16 := by
    apply BitVec.eq_of_toNat_eq
    rw [BitVec.toNat_ofNat, BitVec.toNat_setWidth, BitVec.extractLsb'_toNat, Nat.shiftRight_eq_div_pow]
    omega
  have hcount : BitVec.ofNat 8 (word.toNat / 8 % 8 + 1) = (word.extractLsb' 3 3).setWidth 8 + 1#8 := by
    apply BitVec.eq_of_toNat_eq
    simp [Nat.shiftRight_eq_div_pow]
  have hindex : BitVec.ofNat 8 (word.toNat % 8) = (word.extractLsb' 0 3).setWidth 8 := by
    apply BitVec.eq_of_toNat_eq
    simp
  rw [unpackFields, hnetid, hcount, hindex]

/-- The values of the fields that `PFXUNPK` extracts from a word (R145). -/
theorem toNat_of_unpackFields_eq {w netid : U16} {count index : Byte}
    (h : unpackFields w = u16Bytes netid ++ [count, index]) :
    netid.toNat = w.toNat / 64 ∧ count.toNat = w.toNat / 8 % 8 + 1 ∧ index.toNat = w.toNat % 8 := by
  obtain ⟨hnetid, hrest⟩ := List.append_inj h rfl
  obtain ⟨rfl, rfl⟩ : _ = count ∧ _ = index := by simpa using hrest
  obtain rfl := u16Bytes_inj.1 hnetid
  have hw := w.isLt
  simp only [BitVec.toNat_ofNat]
  omega

/-- Settles O33: the packed word is its three fields side by side. -/
theorem pfxpackResult : Obligations.PfxpackResult := by
  intro netid count index s hidle
  rw [← pack_eq_append]
  exact exec_of_replyOf hidle rfl

/-- Settles O34: the word compared with is the packed word, and each outcome has its status. -/
theorem pfxvfyResult : Obligations.PfxvfyResult := by
  intro actual netid count index s hidle
  rw [← pack_eq_append, exec_of_replyOf hidle (replyOf_pfxvfy actual netid count index), apply_ite s.deliver]
  rfl

/-- Settles O35: the result is the bit slices of the word. -/
theorem pfxunpkResult : Obligations.PfxunpkResult := by
  intro word s hidle
  rw [← unpackFields_eq_extractLsb']
  exact exec_of_replyOf hidle rfl

/-- Settles O36: inside the invariant no field is masked, and the fields of a word make up its value. -/
theorem packLaws : Obligations.PackLaws := by
  refine ⟨?_, ?_⟩
  · intro n c x n' c' x' hn hc hc8 hx hn' hc' hc8' hx' h
    obtain ⟨hnetid, hcount, hindex⟩ := pack_eq_iff.1 h
    omega
  · intro w netid count index h
    obtain ⟨hnetid, hcount, hindex⟩ := toNat_of_unpackFields_eq h
    apply BitVec.eq_of_toNat_eq
    rw [pack_toNat, hnetid, hcount, hindex]
    omega

end Sys2Proof.Machine

/-! ### The checksum commands (R160 to R164) -/

namespace Sys2Proof.Machine

/-- What `CKVFY` answers: one comparison of all three bytes (R163, R164). -/
theorem replyOf_ckvfy (pfx : U16) (secret embedded : Bytes) :
    replyOf (.ckvfy pfx secret embedded) =
      if embedded = computeChecksum config.params pfx secret then .ok [] else .err .checksumMismatch := by
  by_cases h : computeChecksum config.params pfx secret = embedded
  · simp [replyWith, ckvfyReply, validateChecksum, h]
  · simp [replyWith, ckvfyReply, validateChecksum, h, Ne.symm h]

/-- The third byte of a computed checksum has a zero low nibble (R161). -/
theorem computeChecksum_low_nibble (p : OpenParams) (pfx : U16) (secret : Bytes) :
    (computeChecksum p pfx secret).getD 2 0#8 &&& 0x0F#8 = 0#8 := by
  have hmask (x : Byte) : x &&& 0xF0#8 &&& 0x0F#8 = 0#8 := by rw [BitVec.and_assoc]; exact BitVec.and_zero
  exact hmask _

/-- Settles O37: the result is the checksum, whose definition is the statement's formula. -/
theorem cksumResult : Obligations.CksumResult := by
  intro pfx secret s hidle _ d
  have hreply : replyOf (.cksum pfx secret) = .ok [d[0], d[1], d[2] &&& 0xF0#8] := rfl
  exact exec_of_replyOf hidle hreply

/-- Settles O38: each outcome of the comparison has its status, and the computed low nibble is zero. -/
theorem ckvfyResult : Obligations.CkvfyResult := by
  intro pfx secret embedded s hidle _ _ d
  have hexec := exec_of_replyOf hidle (replyOf_ckvfy pfx secret embedded)
  refine ⟨?_, ?_⟩
  · rw [hexec, apply_ite s.deliver]
    rfl
  · intro hnibble
    have hne : embedded ≠ computeChecksum config.params pfx secret := by
      rintro rfl
      exact hnibble (computeChecksum_low_nibble _ _ _)
    rw [hexec, if_neg hne]
    rfl

end Sys2Proof.Machine

/-! ### Encrypting and decrypting under one configuration (R193, R194, R197 to R199) -/

namespace Sys2Proof.Machine

/-- A length that every bound of the capacity allows passes its test (R69). -/
theorem exceeds_eq_false {n : Nat} {cap : Option Nat} (h : ∀ m, cap = some m → n ≤ m) : exceeds n cap = false := by
  cases cap with
  | none => rfl
  | some m => exact exceeds_some_eq_false.2 (h m rfl)

/-- An Idle instance executes a command by delivering its reply (R70). -/
theorem execWith_of_replyWith {c : Config} {i : Instr} {s : State} {r : Reply} (hidle : s.Idle)
    (h : replyWith c i = r) : execWith c i s = .next (s.deliver r) := by
  rw [execWith_eq_next_iff, h]
  exact ⟨hidle, rfl⟩

/-- The length fault of `TKENC` comes before the capacity test (R199, R250). -/
theorem replyWith_tkenc_of_length_ne (c : Config) {secret : Bytes} (hsecret : secret.length ≠ 32) (netid : U16)
    (pin : Bytes) : replyWith c (.tkenc netid pin secret) = .fault .keyLengthError := if_pos hsecret

/-- A 32-byte secret under a PIN within `MAXPIN` is encrypted (R193). -/
theorem replyWith_tkenc {c : Config} {pin secret : Bytes} (hsecret : secret.length = 32)
    (hpin : ∀ m, c.caps.maxPin = some m → pin.length ≤ m) (netid : U16) :
    replyWith c (.tkenc netid pin secret) = .ok (encryptSingle c.params secret pin netid.toNat) := by
  rw [replyWith, tkencReply, if_neg (not_not_intro hsecret), exceeds_eq_false hpin, guardCapacity_false]

/-- What `TKDEC` answers to a string of `TKENC`: it opens the payload (R194, R197). -/
theorem replyWith_tkdec_encryptSingle {c : Config} {pin' : Bytes}
    (hpin : ∀ m, c.caps.maxPin = some m → pin'.length ≤ m) (hsyms : ∀ m, c.caps.maxSyms = some m → 64 ≤ m)
    (pin secret : Bytes) (netid netid' : U16) :
    replyWith c (.tkdec netid' pin' (encryptSingle c.params secret pin netid.toNat)) =
      .ofUnit (openPayload c.params (payloadOf c.params (pack netid.toNat 1 0) pin secret) pin' netid'.toNat 1 0) := by
  have hstr : ∀ m, c.caps.maxSyms = some m → (encryptSingle c.params secret pin netid.toNat).length ≤ m :=
    fun m hm => (length_encryptSingle_le _ _ _ _).trans (hsyms m hm)
  rw [replyWith, tkdecReply, exceeds_eq_false hpin, exceeds_eq_false hstr, Bool.or_false, guardCapacity_false,
    decryptSingle_encryptSingle]

/-- Settles O50: both commands pass their capacity tests, and the payload opens under its own PIN and prefix. -/
theorem transportRoundTripEveryConfig : Obligations.TransportRoundTripEveryConfig := by
  intro c netid pin secret s s' hidle hidle' hsecret hpin hsyms
  have hdec : replyWith c (.tkdec netid pin (encryptSingle c.params secret pin netid.toNat)) = .ok secret := by
    rw [replyWith_tkdec_encryptSingle hpin hsyms, openPayload_payloadOf hsecret rfl, Reply.ofUnit]
  exact ⟨_, execWith_of_replyWith hidle (replyWith_tkenc hsecret hpin netid), execWith_of_replyWith hidle' hdec⟩

/-- A PIN of at most 255 bytes is within `MAXPIN` of the machine (R8). -/
theorem le_config_maxPin {n : Nat} (h : n ≤ 255) : ∀ m, config.caps.maxPin = some m → n ≤ m := by
  rintro _ ⟨⟩
  exact h

/-- A transport string is within `MAXSYMS` of the machine (R8, R45). -/
theorem le_config_maxSyms : ∀ m, config.caps.maxSyms = some m → 64 ≤ m := by
  rintro _ ⟨⟩
  norm_num

/-- Settles O41: on the functions the payload opens under its own PIN and prefix; in commands it is O50 under the
machine's configuration. -/
theorem transportRoundTrip : Obligations.TransportRoundTrip := by
  refine ⟨?_, ?_⟩
  · intro p secret pin netid hsecret
    rw [decryptSingle_encryptSingle, openPayload_payloadOf hsecret rfl]
  · intro netid pin secret s s' hidle hidle' hsecret hpin
    simp only [exec_eq_execWith]
    exact transportRoundTripEveryConfig config netid pin secret s s' hidle hidle' hsecret (le_config_maxPin hpin)
      le_config_maxSyms

/-- Settles O42: the packed words of the two networks differ, so the payload's prefix is refused. -/
theorem networkIsolation : Obligations.NetworkIsolation := by
  intro netid netid' pin pin' secret s s' hidle hidle' hsecret hpin hpin' hnet
  have hpack : pack netid.toNat 1 0 ≠ pack netid'.toNat 1 0 := fun h => hnet (pack_eq_iff.1 h).1
  have hdec : replyWith config (.tkdec netid' pin' (encryptSingle config.params secret pin netid.toNat)) =
      .err .prefixMismatch := by
    rw [replyWith_tkdec_encryptSingle (le_config_maxPin hpin') le_config_maxSyms, openPayload_payloadOf_of_ne hpack,
      Reply.ofUnit]
  exact ⟨_, exec_of_replyOf hidle (replyWith_tkenc hsecret (le_config_maxPin hpin) netid), exec_of_replyOf hidle' hdec⟩

/-- Settles O20: a secret of another length than 32 is the fault, and no other command leaves the block Faulted. -/
theorem keyLengthFault : Obligations.KeyLengthFault := by
  refine ⟨?_, ?_⟩
  · intro netid pin secret s hidle hsecret
    exact exec_of_replyOf hidle (replyWith_tkenc_of_length_ne config hsecret netid pin)
  · intro i s t hexec hkey
    obtain ⟨hidle, rfl⟩ := exec_eq_next_iff.1 hexec
    exact deliver_replyOf_idle hidle hkey

/-! ### The pipelines written out (R184, R186, R187, R191, R192) -/

/-- A slice up to the end of a buffer is what is left after dropping its start (R10). -/
theorem slice_eq_drop {b : Bytes} {j : Nat} (h : b.length = j) (i : Nat) : slice b i j = b.drop i := by
  rw [slice, List.take_of_length_le h.le]

/-- The two copies of the checksum value do not overlap, so the salt is their sum (R191). -/
theorem saltOf_of_length {checksum : Bytes} (h : checksum.length = 3) :
    saltOf checksum = bytesN 5 (be checksum / 16 + be checksum / 16 * 2 ^ 20) := by
  have hlt : be checksum / 16 < 2 ^ 20 := by
    have := be_lt checksum
    rw [h] at this
    omega
  simp only [saltOf]
  rw [Nat.shiftRight_eq_div_pow, Nat.or_comm, ← Nat.shiftLeft_add_eq_or_of_lt hlt, Nat.shiftLeft_eq, Nat.add_comm]

/-- The keys are the two halves of the digest of the stretched PIN (R192). -/
theorem deriveKeys_of_length {checksum : Bytes} (h : checksum.length = 3) (p : OpenParams) (pin : Bytes) :
    deriveKeys p pin checksum =
      let salt := bytesN 5 (be checksum / 16 + be checksum / 16 * 2 ^ 20)
      let digest := (p.sha512 (p.scrypt pin salt 8192 8 1 64).toList).toList
      (toVec 32 (digest.take 32), toVec 32 (digest.drop 32)) := by
  rw [deriveKeys, saltOf_of_length h, slice_eq_drop Vector.length_toList]
  rfl

/-- The encrypted string is the payload divided by 16, in base 24 (R184). -/
theorem encryptSingle_eq (p : OpenParams) (secret pin : Bytes) (netid : Nat) :
    encryptSingle p secret pin netid =
      b24encode p.alphabet (bytesN 37 (be (payloadOf p (pack netid 1 0) pin secret) / 16)) := by
  rw [encryptSingle, shiftRight4, length_payloadOf]

/-- Settles O39: one clause per reply; the string is the encryption, whose steps are written out. -/
theorem tkencResult : Obligations.TkencResult := by
  intro netid pin secret s hidle
  refine ⟨?_, ?_, ?_⟩
  · intro hsecret
    exact exec_of_replyOf hidle (replyWith_tkenc_of_length_ne config hsecret netid pin)
  · intro hsecret hpin
    obtain ⟨-, -, hover, -⟩ := capacityOfEveryConfig config s hidle
    rw [exec_eq_execWith]
    obtain ⟨htkenc, -⟩ := hover 255 [] pin secret netid 0#8 0#8 rfl hpin
    exact htkenc hsecret
  · intro hsecret hpin p pfx checksum cv salt digest enc₁ enc₂ payload str
    have hpayload : payloadOf p pfx pin secret = payload := by
      rw [payloadOf, deriveKeys_of_length (length_computeChecksum _ _ _), slice_eq_drop hsecret]
      rfl
    have hstr : encryptSingle p secret pin netid.toNat = str := by
      rw [encryptSingle_eq, hpayload]
    rw [← hstr]
    exact ⟨exec_of_replyOf hidle (replyWith_tkenc hsecret (le_config_maxPin hpin) netid),
      length_encryptSingle_le _ _ _ _⟩

/-- Decrypting the string of a digit list: the length, the top nibble, then the payload is opened (R186). -/
theorem decryptSingle_map {p : OpenParams} {ds : List Nat} (hds : ∀ d ∈ ds, d < 24) (pin : Bytes) (netid : Nat) :
    decryptSingle p (ds.map (symOf p.alphabet)) pin netid =
      if (decodedBytes ds).length ≠ 37 then .error .lengthMismatch
      else if 0x10 ≤ ((decodedBytes ds).getD 0 0#8).toNat then .error .overflow
      else openPayload p (bytesN 37 (16 * be (decodedBytes ds))) pin netid 1 0 := by
  rw [decryptSingle, b24decode_map hds]
  simp only [payloadLen, bind, Except.bind]
  by_cases hlen : (decodedBytes ds).length = 37
  · rw [if_pos hlen, if_neg (not_not_intro hlen)]
    by_cases hhigh : 0x10 ≤ ((decodedBytes ds).getD 0 0#8).toNat
    · simp only [shiftLeft4_eq_overflow_iff.2 hhigh, if_pos hhigh]
    · have hlow := not_le.1 hhigh
      simp only [shiftLeft4_of_lt hlow, if_neg hhigh]
      rw [← bytesN_eq_leftBytes hlow, hlen]
  · rw [if_neg hlen, if_pos hlen]

/-- Settles O40: one clause per reply, the bytes of a digit list by the library's digits. -/
theorem tkdecResult : Obligations.TkdecResult := by
  intro netid pin s hidle
  refine ⟨?_, ?_, ?_⟩
  · intro str hover
    obtain ⟨-, hsyms, hpins, -⟩ := capacityOfEveryConfig config s hidle
    rw [exec_eq_execWith]
    rcases hover with hpin | hstr
    · obtain ⟨-, htkdec, -⟩ := hpins 255 str pin [] netid 0#8 0#8 rfl hpin
      exact htkdec
    · obtain ⟨-, -, htkdec, -⟩ := hsyms 112 str pin 0#16 netid 0#8 0#8 rfl hstr
      exact htkdec
  · intro str hpin hlen habs
    exact exec_of_replyOf hidle (replyOf_tkdec_of_absent hlen habs hpin netid)
  · intro ds hpin hlen hds p b payload pfx embedded keys secret
    have hb : decodedBytes ds = b := decodedBytes_eq_digits ds
    have hopen : openPayload p payload pin netid.toNat 1 0 =
        if pfx ≠ pack netid.toNat 1 0 then .error .prefixMismatch
        else if computeChecksum p pfx secret ≠ embedded then .error .checksumMismatch
        else .ok secret := by
      rw [openPayload_eq, slice_eq_drop (length_bytesN 37 _)]
      rfl
    rw [exec_of_replyOf hidle (replyOf_tkdec (by rwa [List.length_map]) hpin netid), decryptSingle_map hds, hb, hopen]
    simp only [apply_ite Reply.ofUnit, apply_ite s.deliver]
    rfl

end Sys2Proof.Machine

/-! ### The share combiner (R220, R222) -/

namespace Sys2Proof.Machine

/-- An Idle block answers the combination of the shares (R220). -/
theorem exec_shxor {s : State} (hidle : s.Idle) (shares : List Bytes) :
    exec (.shxor shares) s = .next (s.respond 0x00#8 (combineShares shares)) :=
  exec_of_replyOf hidle (r := shxorReply shares) rfl

@[simp] theorem combineShares_singleton (a : Bytes) : combineShares [a] = a := rfl

theorem xorAt_singleton (a : Bytes) (i : Nat) : xorAt [a] i = a.getD i 0#8 := BitVec.xor_zero

theorem getD_replicate_zero (k i : Nat) : (List.replicate k 0#8).getD i 0#8 = 0#8 :=
  List.getElem?_getD_replicate_default_eq _ k i

/-- The order of the shares does not matter (R222). -/
theorem combineShares_perm {k : Nat} {shares shares' : List Bytes} (hn : 1 ≤ shares.length)
    (h : ∀ x ∈ shares, x.length = k) (hperm : shares.Perm shares') :
    combineShares shares = combineShares shares' :=
  combineShares_congr hn (hperm.length_eq ▸ hn) h (fun x hx => h x (hperm.mem_iff.2 hx)) (xorAt_perm hperm)

/-- The combination of the first shares stands for them in a second stage (R222). -/
theorem combineShares_append {k : Nat} {first more : List Bytes} (hn : 1 ≤ first.length)
    (h : ∀ x ∈ first ++ more, x.length = k) :
    combineShares (combineShares first :: more) = combineShares (first ++ more) := by
  obtain ⟨hfirst, hmore⟩ := List.forall_mem_append.1 h
  obtain ⟨hlen, hat⟩ := combineShares_spec hn hfirst
  refine combineShares_congr (by simp) (by rw [List.length_append]; omega) (List.forall_mem_cons.2 ⟨hlen, hmore⟩) h ?_
  intro i
  rw [xorAt_cons, hat, xorAt_append]

/-- A share cancels itself (R222). -/
theorem combineShares_self (a : Bytes) : combineShares [a, a] = List.replicate a.length 0#8 := by
  have hat : ∀ i, xorAt [a, a] i = xorAt [List.replicate a.length 0#8] i := fun i => by
    rw [xorAt_cons, xorAt_singleton, xorAt_singleton, BitVec.xor_self, getD_replicate_zero]
  exact combineShares_congr (k := a.length) (by simp) (by simp) (by simp) (by simp) hat

/-- Zeros change nothing (R222). -/
theorem combineShares_zeros (a : Bytes) : combineShares [a, List.replicate a.length 0#8] = a := by
  have hat : ∀ i, xorAt [a, List.replicate a.length 0#8] i = xorAt [a] i := fun i => by
    rw [xorAt_cons, xorAt_singleton, xorAt_singleton, getD_replicate_zero, BitVec.xor_zero]
  exact combineShares_congr (k := a.length) (by simp) (by simp) (by simp) (by simp) hat

/-- Settles O45: the combination at every index is `combineShares_spec`, and the reply of `SHXOR` is the combination. -/
theorem shxorResult : Obligations.ShxorResult := by
  refine ⟨?_, ?_⟩
  · intro shares hn hlen
    obtain ⟨hlength, hat⟩ := combineShares_spec hn hlen
    refine ⟨hlength, fun i _ => hat i, ?_⟩
    rintro a rfl
    exact combineShares_singleton a
  · intro shares s hidle _ _ _
    exact exec_shxor hidle shares

/-- Settles O46: each law of the combination, read on the response of `SHXOR`. -/
theorem shxorLaws : Obligations.ShxorLaws := by
  refine ⟨?_, ?_, ?_⟩
  · intro shares shares' s hidle hn _ hlen hperm
    exact ⟨_, exec_shxor hidle shares, combineShares_perm hn hlen hperm ▸ exec_shxor hidle shares'⟩
  · intro first more s s' hidle hidle' hn _ hlen
    exact ⟨_, _, exec_shxor hidle first, exec_shxor hidle' _, combineShares_append hn hlen ▸ exec_shxor hidle' _⟩
  · intro a s hidle hlen
    rw [exec_shxor hidle, exec_shxor hidle, ← hlen, combineShares_self, combineShares_zeros]
    exact ⟨rfl, rfl⟩

end Sys2Proof.Machine

/-! ### The Faulted block (R254, R255) -/

namespace Sys2Proof.Machine

/-- A Faulted block executes no command (R254). -/
theorem exec_of_faulted {s : State} (hfaulted : ¬ s.Idle) (i : Instr) :
    exec i s = .fault (.blockFaulted s.fcause) := by
  rw [exec_eq_complete, complete_of_faulted hfaulted]

/-- A Faulted block with no reset to come has no step (R254). -/
theorem step_of_faulted {s : State} (hfaulted : ¬ s.Idle) (hreset : .reset ∉ s.inbox) :
    step s = .fault (.blockFaulted s.fcause) := by
  rw [step, stepBy, if_neg hfaulted, runFaulted, afterReset_eq_none_iff.2 hreset]

/-- The one step of a Faulted block takes the host's next reset (R255). -/
theorem exists_reset_of_step_faulted {s t : State} (hfaulted : ¬ s.Idle) (hstep : step s = .next t) :
    ∃ pre rest, s.inbox = pre ++ .reset :: rest ∧ t = { s with inbox := rest, fcause := 0x00#8 } := by
  rcases step_cases hstep with ⟨hidle, -⟩ | ⟨pre, rest, hinbox, -, -, ht⟩ | ⟨hidle, -⟩
  · exact absurd hidle hfaulted
  · exact ⟨pre, rest, hinbox, ht⟩
  · exact absurd hidle hfaulted

/-- Settles O7: no command executes, and a reset, which answers nothing, is the only step. -/
theorem faultedBlockTakesNoCommand : Obligations.FaultedBlockTakesNoCommand := by
  intro s hfaulted
  refine ⟨exec_of_faulted hfaulted, step_of_faulted hfaulted, ?_, fun hend => hfaulted hend.1⟩
  intro t hstep
  obtain ⟨pre, rest, hinbox, rfl⟩ := exists_reset_of_step_faulted hfaulted hstep
  exact ⟨by simp [hinbox], rfl⟩

end Sys2Proof.Machine

/-! ### The statuses of each command (R260) -/

namespace Sys2Proof.Machine

/-- The lookup fails on an absent symbol, and only a length that was asked for can mismatch (R102). -/
theorem b24decode_error_cases {a : Alphabet} {str : Syms} {explen : Option Nat} {k : ErrKind}
    (h : b24decode a str explen = .error k) : k = .invalidSymbol ∨ (k = .lengthMismatch ∧ explen ≠ none) := by
  rcases absent_or_digits a str with habs | ⟨ds, hds, rfl⟩
  · rw [b24decode_of_absent habs] at h
    exact .inl (Except.error.inj h).symm
  · rw [b24decode_map hds] at h
    cases explen with
    | none => cases h
    | some n =>
      simp only at h
      split at h
      · cases h
      · exact .inr ⟨(Except.error.inj h).symm, nofun⟩

/-- The left shift fails with `Overflow` alone (R120). -/
theorem eq_overflow_of_shiftLeft4 {b : Bytes} {k : ErrKind} (h : shiftLeft4 b = .error k) : k = .overflow := by
  rw [shiftLeft4_eq] at h
  split at h
  · cases h
  · exact (Except.error.inj h).symm

/-- `OK` is possible for every command. -/
theorem status_ok_mem (i : Instr) (d : Bytes) : (Reply.ok d).status ∈ possibleStatuses i := by
  cases i <;> exact List.mem_cons_self

section CapacityTests
variable {i : Instr} (hcap : 0x06#8 ∈ possibleStatuses i)
include hcap

/-- A capacity test adds `ERR_CAPACITY` alone (R69). -/
theorem status_guardCapacity_mem {r : Reply} (h : r.status ∈ possibleStatuses i) (b : Bool) :
    (guardCapacity b r).status ∈ possibleStatuses i := by
  cases b with
  | true => exact hcap
  | false => exact h

/-- So does the result test. -/
theorem status_guardResult_mem {r : Reply} (h : r.status ∈ possibleStatuses i) (cap : Option Nat) :
    (guardResult cap r).status ∈ possibleStatuses i := by
  rcases guardResult_cases cap r with ⟨_, -, -, hr⟩ | ⟨hr, -⟩ <;> rw [hr]
  · exact hcap
  · exact h

end CapacityTests

/-- A unit function's outcome adds the codes of its errors (R13). -/
theorem status_ofUnit_mem {i : Instr} {e : Except ErrKind Bytes} (h : ∀ k, e = .error k → k.code ∈ possibleStatuses i) :
    (Reply.ofUnit e).status ∈ possibleStatuses i := by
  cases e with
  | ok d => exact status_ok_mem i d
  | error k => exact h k rfl

/-- A command replies with the statuses that R260 marks possible for it. -/
theorem status_replyOf_mem (i : Instr) : (replyOf i).status ∈ possibleStatuses i := by
  cases i with
  | b24enc data =>
    have hcap : 0x06#8 ∈ possibleStatuses (.b24enc data) := by simp [possibleStatuses]
    exact status_guardCapacity_mem hcap (status_guardResult_mem hcap (status_ok_mem _ _) _) _
  | b24dec str =>
    have hcap : 0x06#8 ∈ possibleStatuses (.b24dec str) := by simp [possibleStatuses]
    refine status_guardCapacity_mem hcap (status_guardResult_mem hcap (status_ofUnit_mem fun k hk => ?_) _) _
    rcases b24decode_error_cases hk with rfl | ⟨-, hnone⟩
    · simp [possibleStatuses, ErrKind.code]
    · exact absurd rfl hnone
  | b24decl explen str =>
    have hcap : 0x06#8 ∈ possibleStatuses (.b24decl explen str) := by simp [possibleStatuses]
    refine status_guardCapacity_mem hcap (status_guardResult_mem hcap (status_ofUnit_mem fun k hk => ?_) _) _
    rcases b24decode_error_cases hk with rfl | ⟨rfl, -⟩ <;> simp [possibleStatuses, ErrKind.code]
  | nsmul data =>
    refine status_guardCapacity_mem (by simp [possibleStatuses]) (status_ofUnit_mem fun k hk => ?_) _
    obtain rfl := eq_overflow_of_shiftLeft4 hk
    simp [possibleStatuses, ErrKind.code]
  | nsdiv data => exact status_guardCapacity_mem (by simp [possibleStatuses]) (status_ok_mem _ _) _
  | pfxpack netid count index => exact status_ok_mem _ _
  | pfxvfy actual netid count index =>
    rw [replyOf_pfxvfy]
    split
    · exact status_ok_mem _ _
    · simp [possibleStatuses, Reply.status, ErrKind.code]
  | pfxunpk word => exact status_ok_mem _ _
  | cksum pfx secret => exact status_ok_mem _ _
  | ckvfy pfx secret embedded =>
    rw [replyOf_ckvfy]
    split
    · exact status_ok_mem _ _
    · simp [possibleStatuses, Reply.status, ErrKind.code]
  | tkenc netid pin secret =>
    by_cases hsecret : secret.length = 32
    · rw [replyOf, replyWith, tkencReply, if_neg (not_not_intro hsecret)]
      exact status_guardCapacity_mem (by simp [possibleStatuses]) (status_ok_mem _ _) _
    · rw [replyOf, replyWith_tkenc_of_length_ne config hsecret]
      simp [possibleStatuses, Reply.status, FaultCause.code]
  | tkdec netid pin str | tkdecsh netid count index pin str =>
    refine status_guardCapacity_mem (by simp [possibleStatuses]) (status_ofUnit_mem fun k _ => ?_) _
    cases k <;> simp [possibleStatuses, ErrKind.code]
  | shxor shares => exact status_ok_mem _ _

/-- Settles O22: the response of a command has the status of its reply. -/
theorem statusesOfEachCommand : Obligations.StatusesOfEachCommand := by
  intro i s t hexec
  obtain ⟨-, rfl⟩ := exec_eq_next_iff.1 hexec
  exact ⟨responseOf i, deliver_replyOf_responses s i, status_replyOf_mem i⟩

end Sys2Proof.Machine

/-! ### Reset (R280) -/

namespace Sys2Proof.Machine

/-- Settles O8: the reset state is Idle, and the machine takes a reset as every configuration does. -/
theorem resetClearsFcause : Obligations.ResetClearsFcause := by
  refine ⟨resetStateIsIdle, fun s rest hinbox => ?_⟩
  rw [step_eq_stepWith]
  exact stepWith_of_reset config hinbox

end Sys2Proof.Machine

/-! ### The share path (R188, R189, R195) -/

namespace Sys2Proof.Machine

/-- What the share path does to a blob: the two shifts in closed form, then the payload is opened (R188, R189). -/
theorem decryptShare_of_b24decode {c : Config} {str : Syms} {blob : Bytes}
    (hdec : b24decode c.params.alphabet str (some c.caps.shareBlobLen) = .ok blob) (hlen : blob.length = 40)
    (pin : Bytes) (n count index : Nat) :
    decryptShare c str pin n count index =
      if blob.getD 0 0#8 ≠ 0#8 then .error .overflow
      else openPayload c.params (slice blob 1 37 ++ [blob.getD 37 0#8 &&& 0xF0#8]) pin n count index := by
  rw [decryptShare, hdec, ok_bind, ← bind_assoc, shareShifts_eq hlen]
  by_cases hzero : blob.getD 0 0#8 = 0#8
  · rw [if_pos hzero, if_neg (not_not_intro hzero), ok_bind]
  · rw [if_neg hzero, if_pos hzero]
    rfl

/-- The length of the blob is compared before any shift (R188). -/
theorem decryptShare_of_lengthMismatch {c : Config} {str : Syms}
    (hdec : b24decode c.params.alphabet str (some c.caps.shareBlobLen) = .error .lengthMismatch)
    (pin : Bytes) (n count index : Nat) : decryptShare c str pin n count index = .error .lengthMismatch := by
  rw [decryptShare, hdec]
  rfl

/-- The blob that the spec's reading has around a payload: a zero byte before it, a low nibble in its last byte and two
bytes after it (R189). -/
def shareBlob (payload : Bytes) (low x y : Byte) : Bytes :=
  0#8 :: (payload.take 36 ++ [payload.getD 36 0#8 ||| (low &&& 0x0F#8), x, y])

/-- A low nibble put into a byte is cleared by the mask of the high one. -/
theorem or_low_and_f0 (b low : Byte) : (b ||| (low &&& 0x0F#8)) &&& 0xF0#8 = b &&& 0xF0#8 := by
  have hlow : low &&& 0x0F#8 &&& 0xF0#8 = 0#8 := by
    rw [BitVec.and_assoc]
    exact BitVec.and_zero
  rw [BitVec.and_or_distrib_right, hlow, BitVec.or_zero]

section Blob
variable {payload : Bytes} (hlen : payload.length = 37)
include hlen

theorem length_shareBlob (low x y : Byte) : (shareBlob payload low x y).length = 40 := by
  simp [shareBlob, hlen]

theorem slice_shareBlob (low x y : Byte) : slice (shareBlob payload low x y) 1 37 = payload.take 36 := by
  simp [slice, shareBlob, hlen]

theorem getD_shareBlob (low x y : Byte) :
    (shareBlob payload low x y).getD 37 0#8 = payload.getD 36 0#8 ||| (low &&& 0x0F#8) := by
  simp [shareBlob, hlen]

/-- A 37-byte payload is its first 36 bytes and the last. -/
theorem take_append_getD : payload.take 36 ++ [payload.getD 36 0#8] = payload := by
  rw [List.getD_eq_getElem _ _ (by omega), List.take_append_getElem, List.take_of_length_le (by omega)]

/-- A payload whose last nibble is zero has a last byte that the mask of the high nibble keeps. -/
theorem getD_and_f0_of_low (hlow : be payload % 16 = 0) : payload.getD 36 0#8 &&& 0xF0#8 = payload.getD 36 0#8 := by
  have hbe := be_append_singleton (payload.take 36) (payload.getD 36 0#8)
  rw [take_append_getD hlen] at hbe
  apply BitVec.eq_of_toNat_eq
  rw [and_f0_toNat]
  omega

/-- What the two shifts leave of a blob is the payload in it (R189). -/
theorem shifted_shareBlob (hlow : be payload % 16 = 0) (low x y : Byte) :
    slice (shareBlob payload low x y) 1 37 ++ [(shareBlob payload low x y).getD 37 0#8 &&& 0xF0#8] = payload := by
  rw [slice_shareBlob hlen, getD_shareBlob hlen, or_low_and_f0, getD_and_f0_of_low hlen hlow, take_append_getD hlen]

end Blob

/-- The string of a blob opens to the secret whose payload is in it (R188, R189). -/
theorem decryptShare_shareBlob {pin secret : Bytes} (hsecret : secret.length = 32) (n count index : Nat)
    (low x y : Byte) :
    decryptShare config (b24encode config.params.alphabet
      (shareBlob (payloadOf config.params (pack n count index) pin secret) low x y)) pin n count index = .ok secret := by
  have hpayload := length_payloadOf config.params (pack n count index) pin secret
  have hlow := be_payloadOf_mod config.params (pack n count index) pin secret
  have hlen := length_shareBlob hpayload low x y
  have hzero : (shareBlob (payloadOf config.params (pack n count index) pin secret) low x y).getD 0 0#8 = 0#8 := rfl
  rw [decryptShare_of_b24decode (b24decode_b24encode _ _ (.inr (congrArg some hlen.symm))) hlen,
    if_neg (not_not_intro hzero), shifted_shareBlob hpayload hlow, openPayload_payloadOf hsecret rfl]

/-- Settles O44: the string is within `MAXSYMS`, the shifts leave the payload of the blob, and it opens under its own
PIN and prefix. -/
theorem tkdecshOpensShare : Obligations.TkdecshOpensShare := by
  intro netid count index low x y pin secret s hidle hsecret hpin payload blob
  have hblob : blob.length = 40 := length_shareBlob (length_payloadOf _ _ _ _) low x y
  have hstr : (b24encode config.params.alphabet blob).length ≤ 112 := length_b24encode_le_112 (by omega)
  refine (exec_eq_respond_ok_iff hidle).2 ?_
  rw [replyOf_tkdecsh hstr hpin]
  exact congrArg Reply.ofUnit (decryptShare_shareBlob hsecret _ _ _ low x y)

/-- Decrypting the share string of a digit list: the length, the first byte, then the payload is opened (R188, R189). -/
theorem decryptShare_map {ds : List Nat} (hds : ∀ d ∈ ds, d < 24) (pin : Bytes) (n count index : Nat) :
    decryptShare config (ds.map (symOf config.params.alphabet)) pin n count index =
      if (decodedBytes ds).length ≠ 40 then .error .lengthMismatch
      else if (decodedBytes ds).getD 0 0#8 ≠ 0#8 then .error .overflow
      else openPayload config.params
        (slice (decodedBytes ds) 1 37 ++ [(decodedBytes ds).getD 37 0#8 &&& 0xF0#8]) pin n count index := by
  have hdec : b24decode config.params.alphabet (ds.map (symOf config.params.alphabet)) (some 40) =
      if (decodedBytes ds).length = 40 then .ok (decodedBytes ds) else .error .lengthMismatch := b24decode_map hds _
  by_cases hlen : (decodedBytes ds).length = 40
  · rw [if_pos hlen] at hdec
    rw [if_neg (not_not_intro hlen), decryptShare_of_b24decode hdec hlen]
  · rw [if_neg hlen] at hdec
    rw [if_pos hlen, decryptShare_of_lengthMismatch hdec]

/-- What is left of a 40-byte blob after the two shifts has the length of a payload. -/
theorem length_shifted {b : Bytes} (hlen : b.length = 40) (z : Byte) : (slice b 1 37 ++ [z]).length = 37 := by
  simp [slice, hlen]

/-- Settles O43: one clause per reply, the bytes of a digit list by the library's digits. -/
theorem tkdecshResult : Obligations.TkdecshResult := by
  intro netid count index pin s hidle
  refine ⟨?_, ?_, ?_⟩
  · intro str hover
    obtain ⟨-, hsyms, hpins, -⟩ := capacityOfEveryConfig config s hidle
    rw [exec_eq_execWith]
    rcases hover with hpin | hstr
    · obtain ⟨-, -, htkdecsh⟩ := hpins 255 str pin [] netid count index rfl hpin
      exact htkdecsh
    · obtain ⟨-, -, -, htkdecsh⟩ := hsyms 112 str pin 0#16 netid count index rfl hstr
      exact htkdecsh
  · intro str hpin hlen habs
    exact exec_of_replyOf hidle (replyOf_tkdecsh_of_absent hlen habs hpin netid count index)
  · intro ds hpin hlen hds p b payload pfx embedded keys secret
    have hb : decodedBytes ds = b := decodedBytes_eq_digits ds
    rw [exec_of_replyOf hidle (replyOf_tkdecsh (by rwa [List.length_map]) hpin netid count index),
      decryptShare_map hds, hb]
    by_cases hblob : b.length = 40
    · have hopen : openPayload p payload pin netid.toNat count.toNat index.toNat =
          if pfx ≠ pack netid.toNat count.toNat index.toNat then .error .prefixMismatch
          else if computeChecksum p pfx secret ≠ embedded then .error .checksumMismatch
          else .ok secret := by
        rw [openPayload_eq, slice_eq_drop (length_shifted hblob _)]
        rfl
      rw [hopen]
      simp only [apply_ite Reply.ofUnit, apply_ite s.deliver]
      rfl
    · rw [if_pos hblob, if_pos hblob]
      rfl

end Sys2Proof.Machine

/-! ### What a step takes from the host (R49, R254, R255) -/

namespace Sys2Proof.Machine

/-- Settles O9: the one step of a Faulted block takes a reset, which answers nothing. -/
theorem onlyResetLeavesFaulted : Obligations.OnlyResetLeavesFaulted := by
  intro s t hfaulted hstep
  obtain ⟨pre, rest, hinbox, rfl⟩ := exists_reset_of_step_faulted hfaulted hstep
  exact ⟨rfl, rfl, pre, hinbox⟩

/-- A Faulted block goes on with what the host does after its next reset (R255). -/
theorem step_of_faulted_of_afterReset {s : State} {rest : List HostEvent} (hfaulted : ¬ s.Idle)
    (hreset : afterReset s.inbox = some rest) :
    step s = .next { fcause := 0x00#8, inbox := rest, responses := s.responses } := by
  rw [step, stepBy, if_neg hfaulted, runFaulted, hreset]
  rfl

/-- Settles O10: no frame is a reset, so the reset after the frames is the one the block takes. -/
theorem framesWhileFaultedAreLost : Obligations.FramesWhileFaultedAreLost := by
  intro s fs rest hfaulted hinbox
  have hframes : .reset ∉ fs.map HostEvent.frame := by simp
  exact step_of_faulted_of_afterReset hfaulted (afterReset_eq_some_iff.2 ⟨_, hframes, hinbox⟩)

/-- Settles O15: with nothing presented, `runIdle` answers the state itself. -/
theorem idleBlockWaits : Obligations.IdleBlockWaits := by
  intro s hidle hinbox
  rw [step, stepBy, if_pos hidle, runIdle, hinbox]

/-- Settles O16: a step waits, takes the events up to a reset, or takes one frame and appends its response. -/
theorem stepConsumesEventsInOrder : Obligations.StepConsumesEventsInOrder := by
  intro s t hstep
  rcases step_cases hstep with ⟨-, hinbox, rfl⟩ | ⟨pre, rest, hinbox, -, -, rfl⟩ | ⟨-, f, rest, hinbox, rfl⟩
  · exact ⟨[], [], rfl, by simp, by simp, fun _ => ⟨hinbox, rfl⟩⟩
  · exact ⟨pre ++ [.reset], [], by simp [hinbox], by simp, by simp, by simp⟩
  · exact ⟨[.frame f], _, by simp [hinbox], deliver_responses _ _, by simp, by simp⟩

end Sys2Proof.Machine
